-- ==== Sys2Proof/Word.lean ====
section
/-!
DEFINITION. The word types of the machine (spec 00_scope.md R5, R6). Every value is unsigned.
-/

namespace Sys2Proof

/-- A general register, a timer or a memory byte (`XLEN`, `TLEN` = 8; R5). -/
abbrev Byte := BitVec 8

/-- The program counter, the index register, a stack entry or an instruction (16 bits; R5). -/
abbrev Word := BitVec 16

/-- The field `nnn` of an instruction (R84). -/
abbrev Addr12 := BitVec 12

/-- The number of a general register, V0 to VF (R10). -/
abbrev Reg := Fin 16

/-- The number of a key (R21). -/
abbrev Key := Fin 16

end Sys2Proof
end

