-- ==== Sys2Proof/Decode.lean ====
section
/-!
DEFINITION. Decoding a word (spec 30_encoding.md R84, R87), the opcode map as a table (R86), and the encoder,
written from the formats (R82).
-/

namespace Sys2Proof

/-! ## Fields (R84) -/

/-- `op`, bits 15:12. -/
def fieldOp (w : Word) : BitVec 4 := w.extractLsb 15 12

/-- `x`, bits 11:8. -/
def fieldX (w : Word) : Reg := ⟨(w.extractLsb 11 8).toNat, (w.extractLsb 11 8).isLt⟩

/-- `y`, bits 7:4. -/
def fieldY (w : Word) : Reg := ⟨(w.extractLsb 7 4).toNat, (w.extractLsb 7 4).isLt⟩

/-- `n`, bits 3:0. -/
def fieldN (w : Word) : Fin 16 := ⟨(w.extractLsb 3 0).toNat, (w.extractLsb 3 0).isLt⟩

/-- `nn`, bits 7:0. -/
def fieldNN (w : Word) : Byte := w.extractLsb 7 0

/-- `nnn`, bits 11:0. -/
def fieldNNN (w : Word) : Addr12 := w.extractLsb 11 0

/-! ## The decoder (R87) -/

/-- Why a word is unrecognized: the six classes of R88's table. -/
inductive Unrecognized where
  /-- `0nnn` other than 0x00E0 and 0x00EE. -/
  | op0
  /-- `5xyN`, N not 0. -/
  | op5
  /-- `8xyN`, N one of 8, 9, A, B, C, D, F. -/
  | op8
  /-- `9xyN`, N not 0. -/
  | op9
  /-- `ExNN`, NN neither 0x9E nor 0xA1. -/
  | opE
  /-- `FxNN`, NN none of the nine of the map. -/
  | opF
deriving DecidableEq, Repr

/-- `op` = 0: the whole word is fixed. -/
def decodeFixed (w : Word) : Except Unrecognized Instr :=
  if w = 0x00E0 then .ok .cls
  else if w = 0x00EE then .ok .ret
  else .error .op0

/-- `op` = 8: `n` is the minor opcode. -/
def decode8 (x y : Reg) (n : Fin 16) : Except Unrecognized Instr :=
  if n = 0x0 then .ok (.ldReg x y)
  else if n = 0x1 then .ok (.orReg x y)
  else if n = 0x2 then .ok (.andReg x y)
  else if n = 0x3 then .ok (.xorReg x y)
  else if n = 0x4 then .ok (.addReg x y)
  else if n = 0x5 then .ok (.subReg x y)
  else if n = 0x6 then .ok (.shr x y)
  else if n = 0x7 then .ok (.subnReg x y)
  else if n = 0xE then .ok (.shl x y)
  else .error .op8

/-- `op` = E: `nn` is the minor opcode. -/
def decodeE (x : Reg) (nn : Byte) : Except Unrecognized Instr :=
  if nn = 0x9E then .ok (.skp x)
  else if nn = 0xA1 then .ok (.sknp x)
  else .error .opE

/-- `op` = F: `nn` is the minor opcode. -/
def decodeF (x : Reg) (nn : Byte) : Except Unrecognized Instr :=
  if nn = 0x07 then .ok (.ldVxDt x)
  else if nn = 0x0A then .ok (.ldVxKey x)
  else if nn = 0x15 then .ok (.ldDtVx x)
  else if nn = 0x18 then .ok (.ldStVx x)
  else if nn = 0x1E then .ok (.addI x)
  else if nn = 0x29 then .ok (.ldGlyph x)
  else if nn = 0x33 then .ok (.ldBcd x)
  else if nn = 0x55 then .ok (.storeRegs x)
  else if nn = 0x65 then .ok (.loadRegs x)
  else .error .opF

/-- The instruction a word with major opcode `op` is (R87). -/
def decodeOp (op : BitVec 4) (w : Word) : Except Unrecognized Instr :=
  match op with
  | 0x0#4 => decodeFixed w
  | 0x1#4 => .ok (.jp (fieldNNN w))
  | 0x2#4 => .ok (.call (fieldNNN w))
  | 0x3#4 => .ok (.seImm (fieldX w) (fieldNN w))
  | 0x4#4 => .ok (.sneImm (fieldX w) (fieldNN w))
  | 0x5#4 => if fieldN w = 0 then .ok (.seReg (fieldX w) (fieldY w)) else .error .op5
  | 0x6#4 => .ok (.ldImm (fieldX w) (fieldNN w))
  | 0x7#4 => .ok (.addImm (fieldX w) (fieldNN w))
  | 0x8#4 => decode8 (fieldX w) (fieldY w) (fieldN w)
  | 0x9#4 => if fieldN w = 0 then .ok (.sneReg (fieldX w) (fieldY w)) else .error .op9
  | 0xA#4 => .ok (.ldI (fieldNNN w))
  | 0xB#4 => .ok (.jpx (fieldX w) (fieldNNN w))
  | 0xC#4 => .ok (.rnd (fieldX w) (fieldNN w))
  | 0xD#4 => .ok (.drw (fieldX w) (fieldY w) (fieldN w))
  | 0xE#4 => decodeE (fieldX w) (fieldNN w)
  | _ => decodeF (fieldX w) (fieldNN w) -- the one value left, 0xF

/-- The instruction a word is, or the class of unrecognized words it belongs to (R87, decision D19). -/
def decodeWord (w : Word) : Except Unrecognized Instr := decodeOp (fieldOp w) w

/-- The word two bytes make: the byte at the lower address is the high byte (20_memory.md R52). -/
def wordOfBytes (hi lo : Byte) : Word := hi ++ lo

/-- Why a list of bytes does not begin with an instruction. -/
inductive DecodeError where
  /-- Fewer than two bytes; fetch never gives such a list (20_memory.md R54). -/
  | truncated
  /-- The word is not in the opcode map (R88). -/
  | unrecognized (why : Unrecognized)
deriving DecidableEq, Repr

/-- The instruction at the head of a list of bytes, lowest address first, and the bytes after it: every
instruction is two bytes (R81). -/
def decode : List Byte → Except DecodeError (Instr × List Byte)
  | hi :: lo :: rest =>
    match decodeWord (wordOfBytes hi lo) with
    | .ok ins => .ok (ins, rest)
    | .error why => .error (.unrecognized why)
  | [_] => .error .truncated
  | [] => .error .truncated

/-- The two bytes of the instruction whose bits, numbered as the opcode table numbers them, are the low
`nbits` bits of `w` and zero above (R81: 16 bits, high byte at the lower address). -/
def tableBytes (nbits w : Nat) : List Byte :=
  [BitVec.ofNat 8 (w % 2 ^ nbits / 256), BitVec.ofNat 8 (w % 2 ^ nbits)]

/-- What the decoder reads from an instruction given in the opcode table's numbering. -/
def decodeTableWord (nbits w : Nat) : Option Instr :=
  match decode (tableBytes nbits w) with
  | .ok (ins, _) => some ins
  | .error _ => none

/-! ## The opcode map as a table (R86) -/

/-- One row of the opcode map: a word `w` selects it iff `w &&& mask = value`. -/
structure OpcodeRow where
  pattern : String
  mask : Word
  value : Word
deriving DecidableEq, Repr

/-- Does the word select the row? -/
def OpcodeRow.selects (r : OpcodeRow) (w : Word) : Bool := (w &&& r.mask) == r.value

/-- The complete map, in the order of R86. -/
def opcodeMap : List OpcodeRow :=
  [⟨"00E0", 0xFFFF, 0x00E0⟩, ⟨"00EE", 0xFFFF, 0x00EE⟩, ⟨"1nnn", 0xF000, 0x1000⟩,
   ⟨"2nnn", 0xF000, 0x2000⟩, ⟨"3xnn", 0xF000, 0x3000⟩, ⟨"4xnn", 0xF000, 0x4000⟩,
   ⟨"5xy0", 0xF00F, 0x5000⟩, ⟨"6xnn", 0xF000, 0x6000⟩, ⟨"7xnn", 0xF000, 0x7000⟩] ++
  [⟨"8xy0", 0xF00F, 0x8000⟩, ⟨"8xy1", 0xF00F, 0x8001⟩, ⟨"8xy2", 0xF00F, 0x8002⟩,
   ⟨"8xy3", 0xF00F, 0x8003⟩, ⟨"8xy4", 0xF00F, 0x8004⟩, ⟨"8xy5", 0xF00F, 0x8005⟩,
   ⟨"8xy6", 0xF00F, 0x8006⟩, ⟨"8xy7", 0xF00F, 0x8007⟩, ⟨"8xyE", 0xF00F, 0x800E⟩] ++
  [⟨"9xy0", 0xF00F, 0x9000⟩, ⟨"Annn", 0xF000, 0xA000⟩, ⟨"Bnnn", 0xF000, 0xB000⟩,
   ⟨"Cxnn", 0xF000, 0xC000⟩, ⟨"Dxyn", 0xF000, 0xD000⟩, ⟨"Ex9E", 0xF0FF, 0xE09E⟩,
   ⟨"ExA1", 0xF0FF, 0xE0A1⟩] ++
  [⟨"Fx07", 0xF0FF, 0xF007⟩, ⟨"Fx0A", 0xF0FF, 0xF00A⟩, ⟨"Fx15", 0xF0FF, 0xF015⟩,
   ⟨"Fx18", 0xF0FF, 0xF018⟩, ⟨"Fx1E", 0xF0FF, 0xF01E⟩, ⟨"Fx29", 0xF0FF, 0xF029⟩,
   ⟨"Fx33", 0xF0FF, 0xF033⟩, ⟨"Fx55", 0xF0FF, 0xF055⟩, ⟨"Fx65", 0xF0FF, 0xF065⟩]

/-! ## The encoder (R82) -/

/-- The four bits of a register number or of `n`. -/
def nibble (k : Fin 16) : BitVec 4 := BitVec.ofNat 4 k.val

/-- Format `NNN`. -/
def encodeNNN (op : BitVec 4) (nnn : Addr12) : Word := op ++ nnn

/-- Formats `XNN` and `X` (where `nn` is the minor opcode). -/
def encodeXNN (op : BitVec 4) (x : Reg) (nn : Byte) : Word := op ++ nibble x ++ nn

/-- Formats `XYN` and `XY` (where `n` is the minor opcode). -/
def encodeXYN (op : BitVec 4) (x y : Reg) (n : Fin 16) : Word := op ++ nibble x ++ nibble y ++ nibble n

/-- The word of an instruction. -/
def encode : Instr → Word
  | .cls => 0x00E0
  | .ret => 0x00EE
  | .jp nnn => encodeNNN 0x1 nnn
  | .call nnn => encodeNNN 0x2 nnn
  | .seImm x nn => encodeXNN 0x3 x nn
  | .sneImm x nn => encodeXNN 0x4 x nn
  | .seReg x y => encodeXYN 0x5 x y 0x0
  | .ldImm x nn => encodeXNN 0x6 x nn
  | .addImm x nn => encodeXNN 0x7 x nn
  | .ldReg x y => encodeXYN 0x8 x y 0x0
  | .orReg x y => encodeXYN 0x8 x y 0x1
  | .andReg x y => encodeXYN 0x8 x y 0x2
  | .xorReg x y => encodeXYN 0x8 x y 0x3
  | .addReg x y => encodeXYN 0x8 x y 0x4
  | .subReg x y => encodeXYN 0x8 x y 0x5
  | .shr x y => encodeXYN 0x8 x y 0x6
  | .subnReg x y => encodeXYN 0x8 x y 0x7
  | .shl x y => encodeXYN 0x8 x y 0xE
  | .sneReg x y => encodeXYN 0x9 x y 0x0
  | .ldI nnn => encodeNNN 0xA nnn
  | .jpx _ nnn => encodeNNN 0xB nnn
  | .rnd x nn => encodeXNN 0xC x nn
  | .drw x y n => encodeXYN 0xD x y n
  | .skp x => encodeXNN 0xE x 0x9E
  | .sknp x => encodeXNN 0xE x 0xA1
  | .ldVxDt x => encodeXNN 0xF x 0x07
  | .ldVxKey x => encodeXNN 0xF x 0x0A
  | .ldDtVx x => encodeXNN 0xF x 0x15
  | .ldStVx x => encodeXNN 0xF x 0x18
  | .addI x => encodeXNN 0xF x 0x1E
  | .ldGlyph x => encodeXNN 0xF x 0x29
  | .ldBcd x => encodeXNN 0xF x 0x33
  | .storeRegs x => encodeXNN 0xF x 0x55
  | .loadRegs x => encodeXNN 0xF x 0x65

end Sys2Proof
end

