-- ==== Sys2Proof/Config.lean ====
section
/-!
DEFINITION. The parameters of the machine that the spec leaves to a model's argument (00_scope.md R5), and
the free values.
-/

namespace Sys2Proof

/-- The model arguments `FB_W`, `FB_H` and `GLYPHS` (R5, decisions D1 and D2). They are fixed for a machine
and read by its reset only; after reset the framebuffer carries its own sizes. -/
structure Config where
  /-- `FB_W`, the framebuffer's columns (10_state.md R20). -/
  fbW : Nat
  /-- `FB_H`, the framebuffer's rows (10_state.md R20). -/
  fbH : Nat
  /-- `GLYPHS`, 16 glyphs of 5 bytes, top row first (10_state.md R18). -/
  glyphs : Vector (Vector Byte 5) 16
deriving DecidableEq, Repr

/-- A framebuffer has at least one row and one column. -/
abbrev Config.WellFormed (cfg : Config) : Prop := 0 < cfg.fbW ∧ 0 < cfg.fbH

/-- FREE VALUE (assumption log 6). The `k`-th byte that `draw8` takes from outside, under no law (41_register_alu.md R131,
decision D12). Nothing in Lean can evaluate it. -/
opaque Config.randomByte (k : Nat) : Byte

end Sys2Proof
end

