-- ==== Sys2Proof/Machine/Params.lean ====
section
/-!
DEFINITION. The default values of the model arguments: `FB_W` = 64, `FB_H` = 32 and the glyph table of spec
10_state.md R18. PRESUMED: the spec itself marks them as general knowledge (assumption log 1 and 2; unsafe).
-/

namespace Sys2Proof.Machine

/-- The default `GLYPHS` (R18): row `d` is the glyph of hexadecimal digit `d`. -/
def defaultGlyphs : Vector (Vector Byte 5) 16 := #v[
  #v[0xF0, 0x90, 0x90, 0x90, 0xF0],
  #v[0x20, 0x60, 0x20, 0x20, 0x70],
  #v[0xF0, 0x10, 0xF0, 0x80, 0xF0],
  #v[0xF0, 0x10, 0xF0, 0x10, 0xF0],
  #v[0x90, 0x90, 0xF0, 0x10, 0x10],
  #v[0xF0, 0x80, 0xF0, 0x10, 0xF0],
  #v[0xF0, 0x80, 0xF0, 0x90, 0xF0],
  #v[0xF0, 0x10, 0x20, 0x40, 0x40],
  #v[0xF0, 0x90, 0xF0, 0x90, 0xF0],
  #v[0xF0, 0x90, 0xF0, 0x10, 0xF0],
  #v[0xF0, 0x90, 0xF0, 0x90, 0x90],
  #v[0xE0, 0x90, 0xE0, 0x90, 0xE0],
  #v[0xF0, 0x80, 0x80, 0x80, 0xF0],
  #v[0xE0, 0x90, 0x90, 0x90, 0xE0],
  #v[0xF0, 0x80, 0xF0, 0x80, 0xF0],
  #v[0xF0, 0x80, 0xF0, 0x80, 0x80]]

/-- The default of every model argument (R5). -/
def defaultConfig : Config := { fbW := 64, fbH := 32, glyphs := defaultGlyphs }

end Sys2Proof.Machine
end

