-- ==== Sys2Proof/Machine/State.lean ====
section
/-!
DEFINITION. The state of the core (spec 10_state.md), the reasons a run can stop, and the state after reset.
-/

namespace Sys2Proof.Machine

/-- Why the machine is stuck. No `step` raises any of these: every word has a defined effect in every state
(93_implementation_defined.md), and a hard fault is a next state with `halted` set (60_exceptions.md R194). -/
inductive Fault where
  /-- Raised by `transition` when a step, tick, press or release is issued to a core that no accepted reset
  has initialised (70_reset_and_hazards.md R232, U15: stuck). Safe. -/
  | notStarted
deriving DecidableEq, Repr

/-- Why the model gives an instruction no meaning. -/
inductive Refusal where
  /-- Raised by an arm of `exec` for an instruction not modelled yet; no arm of this model raises it. Safe. -/
  | notModelled (mnemonic : String)
deriving DecidableEq, Repr

/-- `fault_cause` (10_state.md R40). -/
inductive FaultCause where
  /-- 0: no fault. -/
  | none
  /-- 1: `2nnn` with sixteen entries in use. -/
  | stackOverflow
  /-- 2: `00EE` with no entry in use. -/
  | stackUnderflow
deriving DecidableEq, Repr

/-- An event the core emits to the host (10_state.md R42). -/
inductive Output where
  /-- `diag(instr, pc)`, an unrecognized instruction (60_exceptions.md R191). -/
  | diag (instr pc : Word)
  /-- `fault(cause, instr, pc)`, a hard fault (60_exceptions.md R194). -/
  | fault (cause : FaultCause) (instr pc : Word)
  /-- The tone pulse (60_exceptions.md R212). -/
  | tone
deriving DecidableEq, Repr

/-- The 4096 bytes of memory (10_state.md R17), as the cells that differ from what an unlisted address reads
as (`unlistedByte`), addresses strictly rising; `Memory.wf` is the form. -/
abbrev Memory := List Host.Cell

/-- The framebuffer (10_state.md R20), row-major: its two sizes, fixed at construction, and the positions
`r * cols + c` of the pixels that are on, strictly rising; `Grid.wf` is the form. -/
structure Grid where
  rows : Nat
  cols : Nat
  lit : List Nat
deriving DecidableEq, Repr

/-- A framebuffer of the given sizes with every pixel off. -/
def Grid.blank (rows cols : Nat) : Grid := { rows := rows, cols := cols, lit := [] }

/-- The state of the core: all that 10_state.md R41 lists, the arrays beside it, and two fields of the model's
own (`draws`, `outputs`). -/
structure State where
  /-- V0 to VF; `v[15]` is also the flag register VF (R10, R11). -/
  v : Vector Byte 16
  /-- The program counter (R13). -/
  pc : Word
  /-- The index register `I` (R15). -/
  i : Word
  /-- The number of live stack entries, 0 to 16 (R16). -/
  sp : Fin 17
  /-- The return stack (R16). -/
  stack : Vector Word 16
  /-- Memory (R17). -/
  mem : Memory
  /-- The delay timer `DT` (R19). -/
  dt : Byte
  /-- The sound timer `ST` (R19). -/
  st : Byte
  /-- The framebuffer (R20). -/
  fb : Grid
  /-- The key flags, true for pressed (R21). -/
  keys : Vector Bool 16
  /-- `last_key` (R22). -/
  lastKey : Key
  /-- `halted` (R40). -/
  halted : Bool
  /-- `fault_cause` (R40). -/
  faultCause : FaultCause
  /-- `fault_instr` (R40). -/
  faultInstr : Word
  /-- `fault_pc` (R40). -/
  faultPc : Word
  /-- The model's own: how many random bytes have been drawn (assumption log 6). -/
  draws : Nat
  /-- The model's own: the events emitted to the host so far, newest first (assumption log 7). -/
  outputs : List Output
deriving DecidableEq, Repr

/-- The core right after `reset` with an empty program image and the default model arguments
(70_reset_and_hazards.md R231). Stack entries and `last_key` are unspecified there and 0 here (assumption log 3
and 4; unsafe); `draws` and `outputs` are the model's own (log 6 and 7). -/
def State.reset : State where
  v := Vector.replicate 16 0
  pc := 0x0200
  i := 0
  sp := 0
  stack := Vector.replicate 16 0
  mem := []
  dt := 0
  st := 0
  fb := Grid.blank defaultConfig.fbH defaultConfig.fbW
  keys := Vector.replicate 16 false
  lastKey := 0
  halted := false
  faultCause := .none
  faultInstr := 0
  faultPc := 0
  draws := 0
  outputs := []

end Sys2Proof.Machine
end

