-- ==== Sys2Proof/Machine/Ops.lean ====
section
/-!
DEFINITION. The named operations over registers, memory, the stack, the framebuffer and the outside, through
which alone a meaning touches the state (spec 00_scope.md R8), and the entry of a hard fault
(60_exceptions.md R194).

There is no return from a fault beside its entry: R196 gives the machine none.
-/

namespace Sys2Proof.Machine

/-- What a meaning answers. -/
abbrev Result := Host.Outcome State Fault Refusal

/-! ## Memory (20_memory.md) -/

/-- What an address that holds no cell reads as: its contents after reset with an empty image and the default
glyphs (R51; assumption log 1 and 5). -/
def unlistedByte (a : Nat) : Byte :=
  if h : a < 80 then (defaultGlyphs[a / 5]'(by omega))[a % 5]'(by omega) else 0

/-- The cells that make address `a` hold `b`: none where that is what `a` reads as unlisted. -/
def cellsFor (a : Nat) (b : Byte) : Memory := if b = unlistedByte a then [] else [(a, b)]

/-- The byte at the reduced address `a`. -/
def Memory.read : Memory → Nat → Byte
  | [], a => unlistedByte a
  | (k, b) :: m, a => if k = a then b else Memory.read m a

/-- Memory with the byte at the reduced address `a` set. -/
def Memory.write : Memory → Nat → Byte → Memory
  | [], a, b => cellsFor a b
  | (k, c) :: m, a, b =>
    if a < k then cellsFor a b ++ (k, c) :: m
    else if a = k then cellsFor a b ++ m
    else (k, c) :: Memory.write m a b

/-- Addresses strictly rising from `lo` up and below 4096, and no cell that says what unlisted already says. -/
def Memory.wfFrom : Nat → Memory → Bool
  | _, [] => true
  | lo, (k, b) :: m => decide (lo ≤ k ∧ k < 4096 ∧ b ≠ unlistedByte k) && Memory.wfFrom (k + 1) m

/-- The canonical form of memory. -/
def Memory.wf (m : Memory) : Bool := Memory.wfFrom 0 m

/-- The address that reaches memory: the low 12 bits (R54). -/
def memAddr (a : Nat) : Nat := a % 4096

/-- Writes a list of bytes at ascending addresses from `a` (R8 `MemWrite`, R54). -/
def Memory.writeBytes (m : Memory) (a : Nat) : List Byte → Memory
  | [] => m
  | b :: bs => Memory.writeBytes (m.write (memAddr a) b) (a + 1) bs

/-- The `n` bytes at ascending addresses from `a` (R8 `MemRead`, R54). -/
def Memory.readBytes (m : Memory) (a n : Nat) : List Byte :=
  (List.range n).map fun k => m.read (memAddr (a + k))

/-! ## Registers -/

/-- `V[x]` (10_state.md R10). -/
def State.getV (s : State) (x : Reg) : Byte := s.v[x]

/-- `V[x] <- b` (10_state.md R10). -/
def State.setV (s : State) (x : Reg) (b : Byte) : State := { s with v := s.v.set x b }

/-- The register file with `V[k]`, `V[k+1]`, ... set to the bytes of a list. -/
def putRegs (v : Vector Byte 16) (k : Nat) : List Byte → Vector Byte 16
  | [] => v
  | b :: bs => putRegs (v.setIfInBounds k b) (k + 1) bs

/-- `V[0] <- ...`, `V[1] <- ...`: the bytes of a list into the first registers (42_index_memory.md R145). -/
def State.setRegs (s : State) (bs : List Byte) : State := { s with v := putRegs s.v 0 bs }

/-- `V[0]` to `V[x]` (42_index_memory.md R144). -/
def State.firstRegs (s : State) (x : Reg) : List Byte := s.v.toList.take (x.val + 1)

/-- `I <- w` (10_state.md R15). -/
def State.setI (s : State) (w : Word) : State := { s with i := w }

/-- `DT <- b` (10_state.md R19). -/
def State.setDt (s : State) (b : Byte) : State := { s with dt := b }

/-- `ST <- b` (10_state.md R19). -/
def State.setSt (s : State) (b : Byte) : State := { s with st := b }

/-- `mem` replaced. -/
def State.setMem (s : State) (m : Memory) : State := { s with mem := m }

/-- `fb` replaced. -/
def State.setFb (s : State) (g : Grid) : State := { s with fb := g }

/-! ## The program counter (30_encoding.md R83, 10_state.md R14) -/

/-- `pc <- w`. -/
def State.setPc (s : State) (w : Word) : State := { s with pc := w }

/-- The sequential action, `pc <- (pc + 2) mod 65536`. -/
def State.advance (s : State) : State := s.setPc (s.pc + 2)

/-- The skip action: `pc + 4` if the condition holds, else sequential. -/
def State.skipIf (s : State) (c : Bool) : State := if c then s.setPc (s.pc + 4) else s.advance

/-! ## The stack (10_state.md R16) -/

/-- `stack[sp] <- ret; sp <- sp + 1`, or nothing when all sixteen entries are live. -/
def State.push (s : State) (ret : Word) : Option State :=
  if h : s.sp.val < 16 then
    some { s with stack := s.stack.set s.sp.val ret, sp := ⟨s.sp.val + 1, by omega⟩ }
  else none

/-- `sp <- sp - 1`, with the value of `stack[sp]` after it, or nothing when no entry is live. -/
def State.pop (s : State) : Option (Word × State) :=
  if h : 0 < s.sp.val then
    some (s.stack[s.sp.val - 1]'(by omega), { s with sp := ⟨s.sp.val - 1, by omega⟩ })
  else none

/-! ## The framebuffer (10_state.md R20) -/

/-- The place of the pixel at a row and a column; every coordinate wraps. -/
def Grid.place (g : Grid) (r c : Nat) : Nat := (r % g.rows) * g.cols + c % g.cols

/-- Is the pixel at a row and a column on? -/
def Grid.pixel (g : Grid) (r c : Nat) : Bool := g.lit.contains (g.place r c)

/-- A strictly rising list with `p` put in if it is absent and taken out if it is present. -/
def toggle (p : Nat) : List Nat → List Nat
  | [] => [p]
  | q :: l => if p < q then p :: q :: l else if p = q then l else q :: toggle p l

/-- The pixel at a row and a column inverted. -/
def Grid.flip (g : Grid) (r c : Nat) : Grid := { g with lit := toggle (g.place r c) g.lit }

/-- Every pixel off (43_display.md R160 `clear`). -/
def Grid.clear (g : Grid) : Grid := Grid.blank g.rows g.cols

/-- Strictly rising from `lo` up and below `hi`. -/
def risingFrom (hi : Nat) : Nat → List Nat → Bool
  | _, [] => true
  | lo, p :: l => decide (lo ≤ p ∧ p < hi) && risingFrom hi (p + 1) l

/-- The canonical form of the framebuffer. -/
def Grid.wf (g : Grid) : Bool := decide (0 < g.rows ∧ 0 < g.cols) && risingFrom (g.rows * g.cols) 0 g.lit

/-! ## Events and the outside (00_scope.md R8) -/

/-- An event to the host. -/
def State.emit (s : State) (o : Output) : State := { s with outputs := o :: s.outputs }

/-- `draw8()`: a fresh free byte, and the state that remembers it was drawn (41_register_alu.md R131). -/
def State.draw8 (s : State) : Byte × State := (Config.randomByte s.draws, { s with draws := s.draws + 1 })

/-! ## Fetch (30_encoding.md R80) -/

/-- `MemRead(pc, 2)`: the byte at `pc` is the high byte (20_memory.md R52, R54, R58). -/
def State.fetchWord (s : State) : Word :=
  wordOfBytes (s.mem.read (memAddr s.pc.toNat)) (s.mem.read (memAddr (s.pc.toNat + 1)))

/-! ## Diagnostics and hard faults (60_exceptions.md) -/

/-- An unrecognized word: a diagnostic with the address it was fetched from, and the sequential action
(30_encoding.md R88, 60_exceptions.md R191). -/
def State.diagnose (s : State) (w : Word) : State := (s.emit (.diag w s.pc)).advance

/-- Entry of a hard fault (60_exceptions.md R194): the fault record, the halt and the event; `pc` stays at the
instruction and nothing else changes. -/
def State.hardFault (s : State) (cause : FaultCause) (w : Word) : State :=
  { s with
    halted := true
    faultCause := cause
    faultInstr := w
    faultPc := s.pc
    outputs := .fault cause w s.pc :: s.outputs }

/-- `fault_cause` as the two-bit number of 10_state.md R40. -/
def FaultCause.code : FaultCause → BitVec 2
  | .none => 0
  | .stackOverflow => 1
  | .stackUnderflow => 2

end Sys2Proof.Machine
end

