-- ==== Sys2Proof/Machine/Flags.lean ====
section
/-!
DEFINITION. The flag computations (spec 10_state.md R11): each is 0 or 1, from the operands as they were before
the instruction. Collision is the sprite engine's (Machine/Display.lean).
-/

namespace Sys2Proof.Machine

/-- VF, the flag register: it is `V[15]` (R11). -/
def regVF : Reg := 15

/-- A flag as the byte VF receives, 0x00 or 0x01. -/
def flagByte (c : Bool) : Byte := if c then 1 else 0

/-- `V[15] <- 1 if c else 0`. -/
def State.setFlag (s : State) (c : Bool) : State := s.setV regVF (flagByte c)

/-- Carry of `8xy4` (R128). -/
def carry (a b : Byte) : Bool := decide (255 < a.toNat + b.toNat)

/-- Flag of `8xy5` (R129) and, with the operands exchanged, of `8xy7` (R132): strictly greater. -/
def above (a b : Byte) : Bool := decide (b.toNat < a.toNat)

/-- The bit `8xy6` shifts out (R130). -/
def lowBit (a : Byte) : Bool := a.getLsbD 0

/-- The bit `8xyE` shifts out (R133). -/
def highBit (a : Byte) : Bool := a.getLsbD 7

end Sys2Proof.Machine
end

