-- ==== Sys2Proof/Machine/Operands.lean ====
section
/-!
DEFINITION. The operand forms (spec 30_encoding.md R85, 42_index_memory.md R146, 44_keys_timers.md R170).
-/

namespace Sys2Proof.Machine

/-- `zext_16(nnn)` (R85). -/
def zext16 (nnn : Addr12) : Word := nnn.setWidth 16

/-- `zext_16(V[x])` (R104, R141, R142). -/
def regWord (b : Byte) : Word := b.setWidth 16

/-- The key a register value names: its low four bits (R170, decision D10). -/
def keyNumber (b : Byte) : Key := ⟨b.toNat % 16, by omega⟩

/-- `zext_8` of a key number (R173). -/
def keyByte (k : Key) : Byte := BitVec.ofNat 8 k.val

/-- `isPressed(k)` (10_state.md R21). -/
def State.isPressed (s : State) (k : Key) : Bool := s.keys[k]

/-- `anyPressed()` (10_state.md R21). -/
def State.anyPressed (s : State) : Bool := s.keys.toList.any id

/-- The effective address of the `k`-th byte of an access at `I` (R146). -/
def State.effAddr (s : State) (k : Nat) : Nat := memAddr (s.i.toNat + k)

/-- The `n` bytes at `I` (R146). -/
def State.bytesAtI (s : State) (n : Nat) : List Byte := s.mem.readBytes s.i.toNat n

/-- A list of bytes stored at `I` (R146). -/
def State.storeAtI (s : State) (bs : List Byte) : State := s.setMem (s.mem.writeBytes s.i.toNat bs)

/-- The decimal digits of a byte: hundreds, tens, units (R143). -/
def decimalDigits (b : Byte) : List Byte :=
  [BitVec.ofNat 8 (b.toNat / 100), BitVec.ofNat 8 (b.toNat / 10 % 10), BitVec.ofNat 8 (b.toNat % 10)]

end Sys2Proof.Machine
end

