-- ==== Sys2Proof/Machine/Alu.lean ====
section
/-!
DEFINITION. Register loads, arithmetic, logic, shifts and the random byte (spec 41_register_alu.md). Operands are
read from the state the instruction begins in, and writes happen in the order the rule lists (R121, decision D9).
-/

namespace Sys2Proof.Machine

/-- `V[x] <- b` and the sequential action. -/
def State.loadV (s : State) (x : Reg) (b : Byte) : Result := .next (s.setV x b).advance

/-- The flag first, then the result, then the sequential action (R121: `8xy5 8xy6 8xy7 8xyE`). -/
def State.flagThenV (s : State) (c : Bool) (x : Reg) (b : Byte) : Result :=
  .next ((s.setFlag c).setV x b).advance

/-- The result first, then the flag, then the sequential action (R121: `8xy4`). -/
def State.vThenFlag (s : State) (x : Reg) (b : Byte) (c : Bool) : Result :=
  .next ((s.setV x b).setFlag c).advance

/-- `6xnn` (R122). -/
def execLdImm (x : Reg) (nn : Byte) (s : State) : Result := s.loadV x nn

/-- `7xnn` (R123): no flag. -/
def execAddImm (x : Reg) (nn : Byte) (s : State) : Result := s.loadV x (s.getV x + nn)

/-- `8xy0` (R124). -/
def execLdReg (x y : Reg) (s : State) : Result := s.loadV x (s.getV y)

/-- `8xy1` (R125). -/
def execOrReg (x y : Reg) (s : State) : Result := s.loadV x (s.getV x ||| s.getV y)

/-- `8xy2` (R126). -/
def execAndReg (x y : Reg) (s : State) : Result := s.loadV x (s.getV x &&& s.getV y)

/-- `8xy3` (R127). -/
def execXorReg (x y : Reg) (s : State) : Result := s.loadV x (s.getV x ^^^ s.getV y)

/-- `8xy4` (R128). -/
def execAddReg (x y : Reg) (s : State) : Result :=
  s.vThenFlag x (s.getV x + s.getV y) (carry (s.getV x) (s.getV y))

/-- `8xy5` (R129). -/
def execSubReg (x y : Reg) (s : State) : Result :=
  s.flagThenV (above (s.getV x) (s.getV y)) x (s.getV x - s.getV y)

/-- `8xy6` (R130): `V[y]` is not read. -/
def execShr (x _y : Reg) (s : State) : Result := s.flagThenV (lowBit (s.getV x)) x (s.getV x >>> 1)

/-- `8xy7` (R132). -/
def execSubnReg (x y : Reg) (s : State) : Result :=
  s.flagThenV (above (s.getV y) (s.getV x)) x (s.getV y - s.getV x)

/-- `8xyE` (R133): `V[y]` is not read. -/
def execShl (x _y : Reg) (s : State) : Result := s.flagThenV (highBit (s.getV x)) x (s.getV x <<< 1)

/-- `Cxnn` (R131): a free byte, masked. -/
def execRnd (x : Reg) (nn : Byte) (s : State) : Result := s.draw8.2.loadV x (s.draw8.1 &&& nn)

end Sys2Proof.Machine
end

