-- ==== Sys2Proof/Machine/Control.lean ====
section
/-!
DEFINITION. Control transfer (spec 40_control_flow.md).
-/

namespace Sys2Proof.Machine

/-- `00EE` (R101): pop, or a hard fault with cause 2 when no call is outstanding. -/
def execRet (s : State) : Result :=
  match s.pop with
  | some (w, t) => .next (t.setPc w)
  | none => .next (s.hardFault .stackUnderflow (encode .ret))

/-- `1nnn` (R102). -/
def execJp (nnn : Addr12) (s : State) : Result := .next (s.setPc (zext16 nnn))

/-- `2nnn` (R103): push the address after the call, or a hard fault with cause 1 when the stack is full. -/
def execCall (nnn : Addr12) (s : State) : Result :=
  match s.push (s.pc + 2) with
  | some t => .next (t.setPc (zext16 nnn))
  | none => .next (s.hardFault .stackOverflow (encode (.call nnn)))

/-- `Bnnn` (R104): the register added is the one the top digit of `nnn` names. -/
def execJpx (x : Reg) (nnn : Addr12) (s : State) : Result :=
  .next (s.setPc (zext16 nnn + regWord (s.getV x)))

/-- `3xnn` (R105). -/
def execSeImm (x : Reg) (nn : Byte) (s : State) : Result := .next (s.skipIf (s.getV x == nn))

/-- `4xnn` (R106). -/
def execSneImm (x : Reg) (nn : Byte) (s : State) : Result := .next (s.skipIf (s.getV x != nn))

/-- `5xy0` (R107). -/
def execSeReg (x y : Reg) (s : State) : Result := .next (s.skipIf (s.getV x == s.getV y))

/-- `9xy0` (R108). -/
def execSneReg (x y : Reg) (s : State) : Result := .next (s.skipIf (s.getV x != s.getV y))

end Sys2Proof.Machine
end

