-- ==== Sys2Proof/Machine/Display.lean ====
section
/-!
DEFINITION. The sprite engine and the framebuffer instructions (spec 43_display.md).
-/

namespace Sys2Proof.Machine

/-- The pixels under the 1 bits of one sprite byte drawn at row `r` from column `x0`, bit 7 first (R160). -/
def Grid.rowPixels (g : Grid) (r x0 : Nat) (b : Byte) : List (Nat × Nat) :=
  ((List.range 8).filter fun j => b.getLsbD (7 - j)).map fun j => (r % g.rows, (x0 + j) % g.cols)

/-- The pixels under the 1 bits of a sprite with its corner at column `x0`, row `y0`, in the order the engine
visits them (R160). -/
def Grid.spritePixels (g : Grid) (x0 y0 : Nat) : List Byte → List (Nat × Nat)
  | [] => []
  | b :: bs => g.rowPixels y0 x0 b ++ g.spritePixels x0 (y0 + 1) bs

/-- One inversion of the engine's loop: the collision is noted before the pixel is inverted (R160). -/
def Grid.invert (acc : Grid × Bool) (p : Nat × Nat) : Grid × Bool :=
  (acc.1.flip p.1 p.2, acc.2 || acc.1.pixel p.1 p.2)

/-- `drawSprite(x0, y0, bytes)`: the framebuffer after it, and its result, the collision (R160). -/
def Grid.drawSprite (g : Grid) (x0 y0 : Nat) (bytes : List Byte) : Grid × Bool :=
  (g.spritePixels x0 y0 bytes).foldl Grid.invert (g, false)

/-- `00E0` (R161). -/
def execCls (s : State) : Result := .next (s.setFb s.fb.clear).advance

/-- `Dxyn` (R162): the coordinates are read before VF is written (R163). -/
def execDrw (x y : Reg) (n : Fin 16) (s : State) : Result :=
  let drawn := s.fb.drawSprite (s.getV x).toNat (s.getV y).toNat (s.bytesAtI n.val)
  .next ((s.setFb drawn.1).setFlag drawn.2).advance

end Sys2Proof.Machine
end

