-- ==== Sys2Proof/Machine/Index.lean ====
section
/-!
DEFINITION. The index register, loads and stores (spec 42_index_memory.md). Only `Annn`, `Fx1E` and `Fx29`
change `I` (R146).
-/

namespace Sys2Proof.Machine

/-- `Annn` (R140). -/
def execLdI (nnn : Addr12) (s : State) : Result := .next (s.setI (zext16 nnn)).advance

/-- `Fx1E` (R141): modulo 65536, no flag. -/
def execAddI (x : Reg) (s : State) : Result := .next (s.setI (s.i + regWord (s.getV x))).advance

/-- `Fx29` (R142): all eight bits of `V[x]` are used. -/
def execLdGlyph (x : Reg) (s : State) : Result := .next (s.setI (regWord (s.getV x) * 5)).advance

/-- `Fx33` (R143). -/
def execLdBcd (x : Reg) (s : State) : Result := .next (s.storeAtI (decimalDigits (s.getV x))).advance

/-- `Fx55` (R144). -/
def execStoreRegs (x : Reg) (s : State) : Result := .next (s.storeAtI (s.firstRegs x)).advance

/-- `Fx65` (R145). -/
def execLoadRegs (x : Reg) (s : State) : Result := .next (s.setRegs (s.bytesAtI (x.val + 1))).advance

end Sys2Proof.Machine
end

