-- ==== Sys2Proof/Machine/Keys.lean ====
section
/-!
DEFINITION. Key-test skips, key wait and timer access (spec 44_keys_timers.md).
-/

namespace Sys2Proof.Machine

/-- `Ex9E` (R171). -/
def execSkp (x : Reg) (s : State) : Result := .next (s.skipIf (s.isPressed (keyNumber (s.getV x))))

/-- `ExA1` (R172). -/
def execSknp (x : Reg) (s : State) : Result := .next (s.skipIf (!s.isPressed (keyNumber (s.getV x))))

/-- `Fx07` (R174). -/
def execLdVxDt (x : Reg) (s : State) : Result := .next (s.setV x s.dt).advance

/-- `Fx0A` (R173): polling; while no key is down the step changes nothing. -/
def execLdVxKey (x : Reg) (s : State) : Result :=
  .next (if s.anyPressed then (s.setV x (keyByte s.lastKey)).advance else s)

/-- `Fx15` (R175). -/
def execLdDtVx (x : Reg) (s : State) : Result := .next (s.setDt (s.getV x)).advance

/-- `Fx18` (R176): no tone here. -/
def execLdStVx (x : Reg) (s : State) : Result := .next (s.setSt (s.getV x)).advance

end Sys2Proof.Machine
end

