-- ==== Sys2Proof/Machine/Step.lean ====
section
/-!
DEFINITION. One step of the step agent (spec 30_encoding.md R80).
-/

namespace Sys2Proof.Machine

/-- One fetch-decode-execute cycle (R80). A halted core does nothing at all (10_state.md R44, 60_exceptions.md R196). -/
def step (s : State) : Host.Outcome State Fault Refusal :=
  if s.halted then .next s
  else
    match decodeWord s.fetchWord with
    | .ok ins => exec ins s
    | .error _ => .next (s.diagnose s.fetchWord)

/-- The state with an instruction, given in the opcode table's numbering, where the next step fetches: its two
bytes at `pc`, in a core that is running (assumption log 12). -/
def State.withFetchWord (s : State) (nbits w : Nat) : State :=
  { s with mem := s.mem.writeBytes s.pc.toNat (tableBytes nbits w), halted := false }

end Sys2Proof.Machine
end

