-- ==== Sys2Proof/Machine/Agents.lean ====
section
/-!
DEFINITION. The other agents of spec 10_state.md R44 (tick, keys, reset), the reader of the framebuffer, and the
core as the host drives it: one function per transition, any of them at any time.
-/

namespace Sys2Proof.Machine

/-! ## The tick agent (60_exceptions.md R211, R212) -/

/-- `DT` one step toward zero. -/
def State.decayDt (s : State) : State := if s.dt = 0 then s else s.setDt (s.dt - 1)

/-- `ST` one step toward zero, with a tone exactly when it was not zero. -/
def State.decaySt (s : State) : State := if s.st = 0 then s else (s.setSt (s.st - 1)).emit .tone

/-- One `tick` (R211). -/
def tick (s : State) : State := if s.halted then s else s.decayDt.decaySt

/-! ## The key agent (60_exceptions.md R215, R216) -/

/-- `press(k)` (R215). -/
def press (k : Key) (s : State) : State :=
  if s.halted then s else { s with keys := s.keys.set k true, lastKey := k }

/-- `release(k)` (R216): `last_key` stays. -/
def release (k : Key) (s : State) : State :=
  if s.halted then s else { s with keys := s.keys.set k false }

/-! ## The renderer (10_state.md R42, 43_display.md R165) -/

/-- `fb_read()`: the whole grid, row 0 (the top) first and column 0 (the leftmost) first in each row. -/
def fbRead (s : State) : List (List Bool) :=
  (List.range s.fb.rows).map fun r => (List.range s.fb.cols).map fun c => s.fb.pixel r c

/-! ## Reset (70_reset_and_hazards.md R230 to R232) -/

/-- `MAX_IMAGE`, the room from 0x200 to 0xFFF (00_scope.md R5). -/
def maxImage : Nat := 3584

/-- What `reset` gives back to the host (R222). -/
inductive ResetResult where
  /-- A started machine. -/
  | accepted
  /-- The image was refused: result code 3 (R232). -/
  | loadFailure
deriving DecidableEq, Repr

/-- The two-bit number of a result (10_state.md R40: 0 none, 3 a refused image). -/
def ResetResult.code : ResetResult → BitVec 2
  | .accepted => 0
  | .loadFailure => 3

/-- The 80 bytes of a glyph table, in address order (10_state.md R18). -/
def glyphBytes (cfg : Config) : List Byte := cfg.glyphs.toList.flatMap Vector.toList

/-- Memory after reset (20_memory.md R51): the glyphs from 0 and the image from 0x200. -/
def bootMemory (cfg : Config) (image : List Byte) : Memory :=
  (Memory.writeBytes [] 0 (glyphBytes cfg)).writeBytes 0x200 image

/-- The state after an accepted reset (R231). The number of draws and the history of outputs, which are the
model's own, go on (assumption log 6 and 7). -/
def State.boot (cfg : Config) (image : List Byte) (draws : Nat) (outputs : List Output) : State :=
  { State.reset with
    mem := bootMemory cfg image
    fb := Grid.blank cfg.fbH cfg.fbW
    draws := draws
    outputs := outputs }

/-- `reset(image)` on a core that may never have been started (`none`). The image is `none` where the host could
not read it. An image that is refused leaves the core as it was (R232). -/
def resetTo (cfg : Config) (image : Option (List Byte)) (m : Option State) : Option State × ResetResult :=
  match image with
  | none => (m, .loadFailure)
  | some bytes =>
    if bytes.length ≤ maxImage then
      match m with
      | none => (some (State.boot cfg bytes 0 []), .accepted)
      | some s => (some (State.boot cfg bytes s.draws s.outputs), .accepted)
    else (m, .loadFailure)

/-! ## The core as the host drives it (10_state.md R43, R44) -/

/-- The host's inputs that change state (R43). -/
inductive Input where
  | reset (image : Option (List Byte))
  | step
  | tick
  | press (k : Key)
  | release (k : Key)
deriving DecidableEq, Repr

/-- A step's outcome as an outcome of a started core. -/
def started : Result → Host.Outcome (Option State) Fault Refusal
  | .next s => .next (some s)
  | .fault r => .fault r
  | .refused r => .refused r

/-- One transition of the core, which is `none` before its first accepted reset; nothing but reset is defined on
it then (U15). -/
def transition (cfg : Config) (e : Input) (m : Option State) : Host.Outcome (Option State) Fault Refusal :=
  match e, m with
  | .reset image, m => .next (resetTo cfg image m).1
  | .step, some s => started (Sys2Proof.Machine.step s)
  | .tick, some s => .next (some (Sys2Proof.Machine.tick s))
  | .press k, some s => .next (some (Sys2Proof.Machine.press k s))
  | .release k, some s => .next (some (Sys2Proof.Machine.release k s))
  | .step, none => .fault .notStarted
  | .tick, none => .fault .notStarted
  | .press _, none => .fault .notStarted
  | .release _, none => .fault .notStarted

end Sys2Proof.Machine
end

