-- ==== Sys2Proof/Safety.lean ====
section
/-!
DEFINITION. The terms claims are stated in: what an instruction leaves unchanged, the invariant of the machine, its
reachable states, what a good run is, and which pixels a sprite covers.
-/

namespace Sys2Proof.Machine

/-! ## Frames -/

/-- A piece of the state; memory byte by byte, the stack entry by entry, the keys one by one. -/
inductive Piece where
  | v (x : Reg)
  | pc
  | i
  | sp
  | stack (k : Fin 16)
  | mem (a : Nat)
  | dt
  | st
  | fb
  | key (k : Key)
  | lastKey
  | halted
  | faultCause
  | faultInstr
  | faultPc
  | draws
  | outputs
deriving DecidableEq, Repr

/-- The piece is the same in both states. -/
def Piece.same (s t : State) : Piece → Prop
  | .v x => t.getV x = s.getV x
  | .pc => t.pc = s.pc
  | .i => t.i = s.i
  | .sp => t.sp = s.sp
  | .stack k => t.stack[k] = s.stack[k]
  | .mem a => t.mem.read a = s.mem.read a
  | .dt => t.dt = s.dt
  | .st => t.st = s.st
  | .fb => t.fb = s.fb
  | .key k => t.isPressed k = s.isPressed k
  | .lastKey => t.lastKey = s.lastKey
  | .halted => t.halted = s.halted
  | .faultCause => t.faultCause = s.faultCause
  | .faultInstr => t.faultInstr = s.faultInstr
  | .faultPc => t.faultPc = s.faultPc
  | .draws => t.draws = s.draws
  | .outputs => t.outputs = s.outputs

/-- Every piece but those listed is the same in both states. -/
def UnchangedBut (ps : List Piece) (s t : State) : Prop := ∀ p, p ∉ ps → p.same s t

/-- What the entry of a hard fault writes (60_exceptions.md R194): the halt, the record and the event. -/
def hardFaultPieces : List Piece := [.halted, .faultCause, .faultInstr, .faultPc, .outputs]

/-- The bytes an access of `n` bytes at `I` reaches (42_index_memory.md R146). -/
def bytePieces (s : State) (n : Nat) : List Piece := (List.range n).map fun k => .mem (s.effAddr k)

/-- The registers `V[0]` to `V[x]`. -/
def regPieces (x : Reg) : List Piece := ((List.finRange 16).filter fun k => decide (k ≤ x)).map .v

/-! ## Shapes of effect -/

/-- In every state the instruction completes: it skips the next instruction where the condition holds and
advances where it does not, and changes nothing else (30_encoding.md R83). -/
def SkipsWhen (ins : Instr) (cond : State → Prop) : Prop :=
  ∀ s, ∃ t, exec ins s = .next t ∧ (cond s → t.pc = s.pc + 4) ∧ (¬ cond s → t.pc = s.pc + 2) ∧
    UnchangedBut [.pc] s t

/-- In every state the instruction completes: `V[x]` receives the number given, `pc` advances, and nothing else
changes. -/
def LoadsRegister (ins : Instr) (x : Reg) (value : State → Nat) : Prop :=
  ∀ s, ∃ t, exec ins s = .next t ∧ (t.getV x).toNat = value s ∧ t.pc = s.pc + 2 ∧ UnchangedBut [.v x, .pc] s t

/-- In every state the instruction completes: `I` receives the number given, `pc` advances, and nothing else
changes. -/
def LoadsIndex (ins : Instr) (value : State → Nat) : Prop :=
  ∀ s, ∃ t, exec ins s = .next t ∧ t.i.toNat = value s ∧ t.pc = s.pc + 2 ∧ UnchangedBut [.i, .pc] s t

/-- The registers an instruction may change (10_state.md R12): its destination, the registers `Fx65` loads, and VF
where it is written as a flag. -/
def writesReg : Instr → Reg → Bool
  | .cls, _ => false
  | .ret, _ => false
  | .jp _, _ => false
  | .call _, _ => false
  | .seImm _ _, _ => false
  | .sneImm _ _, _ => false
  | .seReg _ _, _ => false
  | .ldImm x _, r => r == x
  | .addImm x _, r => r == x
  | .ldReg x _, r => r == x
  | .orReg x _, r => r == x
  | .andReg x _, r => r == x
  | .xorReg x _, r => r == x
  | .addReg x _, r => r == x || r == regVF
  | .subReg x _, r => r == x || r == regVF
  | .shr x _, r => r == x || r == regVF
  | .subnReg x _, r => r == x || r == regVF
  | .shl x _, r => r == x || r == regVF
  | .sneReg _ _, _ => false
  | .ldI _, _ => false
  | .jpx _ _, _ => false
  | .rnd x _, r => r == x
  | .drw _ _ _, r => r == regVF
  | .skp _, _ => false
  | .sknp _, _ => false
  | .ldVxDt x, r => r == x
  | .ldVxKey x, r => r == x
  | .ldDtVx _, _ => false
  | .ldStVx _, _ => false
  | .addI _, _ => false
  | .ldGlyph _, _ => false
  | .ldBcd _, _ => false
  | .storeRegs _, _ => false
  | .loadRegs x, r => decide (r ≤ x)

/-- Does the instruction's own effect set `pc` to something other than the next instruction or the one after it
(10_state.md R14: absolute, indexed, return)? -/
def isTransfer : Instr → Bool
  | .ret => true
  | .jp _ => true
  | .call _ => true
  | .jpx _ _ => true
  | .cls => false
  | .seImm _ _ => false
  | .sneImm _ _ => false
  | .seReg _ _ => false
  | .ldImm _ _ => false
  | .addImm _ _ => false
  | .ldReg _ _ => false
  | .orReg _ _ => false
  | .andReg _ _ => false
  | .xorReg _ _ => false
  | .addReg _ _ => false
  | .subReg _ _ => false
  | .shr _ _ => false
  | .subnReg _ _ => false
  | .shl _ _ => false
  | .sneReg _ _ => false
  | .ldI _ => false
  | .rnd _ _ => false
  | .drw _ _ _ => false
  | .skp _ => false
  | .sknp _ => false
  | .ldVxDt _ => false
  | .ldVxKey _ => false
  | .ldDtVx _ => false
  | .ldStVx _ => false
  | .addI _ => false
  | .ldGlyph _ => false
  | .ldBcd _ => false
  | .storeRegs _ => false
  | .loadRegs _ => false

/-! ## Good runs and the invariant -/

/-- A core that runs: no hard fault has happened (60_exceptions.md R196: the premise of every claim about a
program). -/
abbrev Running (s : State) : Prop := s.halted = false

/-- The fault record agrees with the rest of the state: all zero while running; while halted, the instruction
that `pc` still points at and the stack level that made it fault (60_exceptions.md R194, R196). -/
def FaultRecordOk (s : State) : Prop :=
  (s.halted = false ∧ s.faultCause = .none ∧ s.faultInstr = 0 ∧ s.faultPc = 0) ∨
  (s.halted = true ∧ s.faultPc = s.pc ∧ s.faultInstr = s.fetchWord ∧
    ((s.faultCause = .stackOverflow ∧ s.sp = 16 ∧ fieldOp s.faultInstr = 0x2) ∨
      (s.faultCause = .stackUnderflow ∧ s.sp = 0 ∧ s.faultInstr = 0x00EE)))

/-- The invariant of the machine: memory and framebuffer are in their canonical forms, and the fault record
agrees with the state. -/
structure CoreInv (s : State) : Prop where
  memWf : s.mem.wf = true
  fbWf : s.fb.wf = true
  faultOk : FaultRecordOk s

/-- What the host can bring the core to: any transitions in any order (10_state.md R44). -/
inductive Reachable (cfg : Config) : Option State → Prop where
  | unstarted : Reachable cfg none
  | next {m m' : Option State} (e : Input) (h : Reachable cfg m) (ht : transition cfg e m = .next m') :
      Reachable cfg m'

/-- The invariant of the core as the host drives it: once started it has `CoreInv` and a framebuffer of the sizes its
parameters give; before that there is nothing to say (10_state.md R20, R44). -/
def HostInv (cfg : Config) (m : Option State) : Prop :=
  ∀ s, m = some s → CoreInv s ∧ s.fb.rows = cfg.fbH ∧ s.fb.cols = cfg.fbW

/-- Is the input a reset? -/
def Input.isReset : Input → Bool
  | .reset _ => true
  | .step => false
  | .tick => false
  | .press _ => false
  | .release _ => false

/-- A run of any transitions but reset along which at least `d` stack entries stay live: the model's reading of what
lies between a call and its return (40_control_flow.md R109; assumption log 19). -/
inductive RunAtDepth (cfg : Config) (d : Nat) (s : State) : State → Prop where
  | start (h : d ≤ s.sp.val) : RunAtDepth cfg d s s
  | next {t u : State} (e : Input) (h : RunAtDepth cfg d s t) (he : e.isReset = false)
      (ht : transition cfg e (some t) = .next (some u)) (hd : d ≤ u.sp.val) : RunAtDepth cfg d s u

/-! ## Sprites -/

/-- The sprite of `n` bytes at `I` drawn at `(V[x], V[y])` has a 1 bit on the pixel at row `r`, column `c`
(43_display.md R160, R162). -/
def Covers (s : State) (x y : Reg) (n r c : Nat) : Prop :=
  ∃ k < n, ∃ j < 8, (s.mem.read (s.effAddr k)).getLsbD (7 - j) = true ∧
    ((s.getV y).toNat + k) % s.fb.rows = r ∧ ((s.getV x).toNat + j) % s.fb.cols = c

/-- The pixels under the 1 bits of the sprite of `n` bytes at `I` drawn at `(V[x], V[y])`, in the order of R160:
bit `b` counts from bit 7 of the first byte. A framebuffer smaller than the sprite has a pixel more than once. -/
def visits (s : State) (x y : Reg) (n : Nat) : List (Nat × Nat) :=
  ((List.range (8 * n)).filter fun b => (s.mem.read (s.effAddr (b / 8))).getLsbD (7 - b % 8)).map fun b =>
    (((s.getV y).toNat + b / 8) % s.fb.rows, ((s.getV x).toNat + b % 8) % s.fb.cols)

/-- The pixel `p` after it was inverted once for each time a list has it. -/
def invertedBy (s : State) (ps : List (Nat × Nat)) (p : Nat × Nat) : Bool :=
  s.fb.pixel p.1 p.2 ^^ decide (ps.count p % 2 = 1)

/-- The framebuffer is wide and high enough that no two bits of one sprite share a pixel (43_display.md R160). -/
abbrev RoomForSprite (s : State) : Prop := 15 ≤ s.fb.rows ∧ 8 ≤ s.fb.cols

end Sys2Proof.Machine
end

