-- ==== Sys2Proof/Certificates/Slice0/Obligations.lean ====
section
/-!
DEFINITION. The statements about the model for the provers, in the order of OBLIGATIONS.json.
-/

open Sys2Proof Sys2Proof.Machine

/-! ## Encoding -/

/-- One word per format, written out from the rows of R86, decodes to the instruction it stands for. -/
def Obligations.WordsOfEachFormatDecode : Prop :=
  decodeWord 0x00E0 = .ok .cls ∧ decodeWord 0x00EE = .ok .ret ∧
  decodeWord 0x1ABC = .ok (.jp 0xABC) ∧ decodeWord 0x6A3E = .ok (.ldImm 10 0x3E) ∧
  decodeWord 0x8124 = .ok (.addReg 1 2) ∧ decodeWord 0xD5A3 = .ok (.drw 5 10 3) ∧
  decodeWord 0xF365 = .ok (.loadRegs 3) ∧ decodeWord 0xB2F0 = .ok (.jpx 2 0x2F0)

/-- Decoding the word of a well-formed instruction gives the instruction back, whatever its operands. -/
def Obligations.DecodeOfEncode : Prop := ∀ ins, WellFormed ins → decodeWord (encode ins) = .ok ins

/-- Each recognized word has one meaning: the instruction it decodes to is well-formed and encodes to it. -/
def Obligations.EncodeOfDecode : Prop :=
  ∀ w ins, decodeWord w = .ok ins → WellFormed ins ∧ encode ins = w

/-- R86: the map has 34 rows; a recognized word selects, by mask and match, its own instruction's row and no
other, and an unrecognized word selects none. -/
def Obligations.EveryWordSelectsItsOwnRow : Prop :=
  opcodeMap.length = 34 ∧
  ∀ w, (opcodeMap.filter fun r => r.selects w).map (·.pattern) =
    match decodeWord w with
    | .ok ins => [ins.pattern]
    | .error _ => []

/-- R87, R88: the unrecognized words are exactly the six classes of R88's table. That every fixed digit must match
is the spec's decision D19. -/
def Obligations.UnrecognizedWordsAreTheSixClasses : Prop :=
  ∀ w, (∃ why, decodeWord w = .error why) ↔
    (fieldOp w = 0x0 ∧ w ≠ 0x00E0 ∧ w ≠ 0x00EE) ∨
    (fieldOp w = 0x5 ∧ fieldN w ≠ 0) ∨
    (fieldOp w = 0x8 ∧ fieldN w ∉ [0, 1, 2, 3, 4, 5, 6, 7, 0xE]) ∨
    (fieldOp w = 0x9 ∧ fieldN w ≠ 0) ∨
    (fieldOp w = 0xE ∧ fieldNN w ∉ [0x9E, 0xA1]) ∨
    (fieldOp w = 0xF ∧ fieldNN w ∉ [0x07, 0x0A, 0x15, 0x18, 0x1E, 0x29, 0x33, 0x55, 0x65])

/-! ## The step -/

/-- R80: a running core whose bytes at `pc`, high byte first and each address modulo 4096, decode to an
instruction runs exactly that instruction; the step adds nothing around it. The address modulo 4096 is the
spec's decision D4. -/
def Obligations.StepRunsTheDecodedInstruction : Prop :=
  ∀ s ins, Running s →
    decodeWord (s.mem.read (s.pc.toNat % 4096) ++ s.mem.read ((s.pc.toNat + 1) % 4096)) = .ok ins →
    step s = exec ins s

/-- R52, R64: an instruction whose bytes were stored where the core fetches next is what the next step runs. It holds
from a halted state too, which fetches nothing by R196, only because `withFetchWord` makes the core run: the model's
choice (log entry 12). -/
def Obligations.PlacedInstructionRuns : Prop :=
  ∀ (s : State) nbits w ins, s.mem.wf = true → decodeTableWord nbits w = some ins →
    step (s.withFetchWord nbits w) = exec ins (s.withFetchWord nbits w)

/-- R88, R191: an unrecognized word is reported with the address it was fetched from and skipped; nothing else
changes. Which address is reported is the spec's decision D19; the history that holds the report is the model's
own (log entry 7). -/
def Obligations.UnrecognizedWordIsReportedAndSkipped : Prop :=
  ∀ s why, Running s → decodeWord s.fetchWord = .error why →
    ∃ t, step s = .next t ∧ t.pc = s.pc + 2 ∧ t.outputs = .diag s.fetchWord s.pc :: s.outputs ∧
      UnchangedBut [.pc, .outputs] s t

/-- R44, R196: while halted neither step, tick, press nor release changes anything (the spec's decision D14). -/
def Obligations.HaltedCoreIgnoresAllButReset : Prop :=
  ∀ s, s.halted = true →
    step s = .next s ∧ tick s = s ∧ ∀ k, press k s = s ∧ release k s = s

/-- R80, R190, R197: every step of a running core ends in a next state, and it is halted exactly when the
instruction was a call with sixteen live entries or a return with none. -/
def Obligations.OnlyStackFaultsHalt : Prop :=
  ∀ s, Running s → ∃ t, step s = .next t ∧
    (t.halted = true ↔
      ((∃ nnn, decodeWord s.fetchWord = .ok (.call nnn)) ∧ s.sp = 16) ∨
      (decodeWord s.fetchWord = .ok .ret ∧ s.sp = 0))

/-- R197, R212, R222: a step gives the host at most one event, and never a tone. The history that holds the events is
the model's own (log entry 7). -/
def Obligations.StepEmitsAtMostOneEvent : Prop :=
  ∀ s t, step s = .next t → t.outputs = s.outputs ∨ ∃ o, o ≠ .tone ∧ t.outputs = o :: s.outputs

/-! ## Control transfer -/

/-- R102. -/
def Obligations.JumpGoesToItsAddress : Prop :=
  ∀ nnn : Addr12, decodeWord (0x1#4 ++ nnn) = .ok (.jp nnn) ∧
    ∀ s, ∃ t, exec (.jp nnn) s = .next t ∧ t.pc.toNat = nnn.toNat ∧ UnchangedBut [.pc] s t

/-- R103, both branches: with room the address after the call is pushed and `pc` goes to the target; with sixteen
live entries the call is a hard fault with cause 1 and nothing outside the fault state changes. The number of the
cause is the spec's decision D13. -/
def Obligations.CallPushesAndJumpsOrFaults : Prop :=
  ∀ nnn : Addr12, decodeWord (0x2#4 ++ nnn) = .ok (.call nnn) ∧
    ∀ s,
      (∀ h : s.sp.val < 16, ∃ t, exec (.call nnn) s = .next t ∧ t.stack[s.sp.val] = s.pc + 2 ∧
        t.sp.val = s.sp.val + 1 ∧ t.pc.toNat = nnn.toNat ∧ UnchangedBut [.pc, .sp, .stack ⟨s.sp.val, h⟩] s t) ∧
      (s.sp.val = 16 → ∃ t, exec (.call nnn) s = .next t ∧ t.halted = true ∧ t.faultCause.code = 1 ∧
        UnchangedBut hardFaultPieces s t)

/-- R101, both branches: with a live entry `pc` becomes the entry on top, as it stands, and the count falls by one;
with none the return is a hard fault with cause 2 and nothing outside the fault state changes. The number of the
cause is the spec's decision D13. -/
def Obligations.ReturnPopsOrFaults : Prop :=
  decodeWord 0x00EE = .ok .ret ∧
    ∀ s,
      (∀ k (hk : k < 16), s.sp.val = k + 1 → ∃ t, exec .ret s = .next t ∧ t.pc = s.stack[k] ∧ t.sp.val = k ∧
        UnchangedBut [.pc, .sp] s t) ∧
      (s.sp.val = 0 → ∃ t, exec .ret s = .next t ∧ t.halted = true ∧ t.faultCause.code = 2 ∧
        UnchangedBut hardFaultPieces s t)

/-- R194, through a step: the record of a hard fault holds the cause, the word that was fetched and its address, the
event says the same, and nothing else changes. What the record holds is the spec's decision D13; the history that
holds the event is the model's own (log entry 7). -/
def Obligations.HardFaultEntryRecordsTheInstruction : Prop :=
  ∀ s, Running s →
    (∀ nnn, decodeWord s.fetchWord = .ok (.call nnn) → s.sp = 16 →
      ∃ t, step s = .next t ∧ t.halted = true ∧ t.faultCause = .stackOverflow ∧ t.faultInstr = s.fetchWord ∧
        t.faultPc = s.pc ∧ t.outputs = .fault .stackOverflow s.fetchWord s.pc :: s.outputs ∧
        UnchangedBut hardFaultPieces s t) ∧
    (decodeWord s.fetchWord = .ok .ret → s.sp = 0 →
      ∃ t, step s = .next t ∧ t.halted = true ∧ t.faultCause = .stackUnderflow ∧ t.faultInstr = s.fetchWord ∧
        t.faultPc = s.pc ∧ t.outputs = .fault .stackUnderflow s.fetchWord s.pc :: s.outputs ∧
        UnchangedBut hardFaultPieces s t)

/-- R104: the register added is the one the top digit of the address names, and the sum is kept whole. -/
def Obligations.IndexedJumpAddsItsOwnRegister : Prop :=
  (∀ nnn : Addr12, decodeWord (0xB#4 ++ nnn) = .ok (.jpx ⟨nnn.toNat / 256, by omega⟩ nnn)) ∧
    ∀ x nnn s, ∃ t, exec (.jpx x nnn) s = .next t ∧ t.pc.toNat = nnn.toNat + (s.getV x).toNat ∧
      UnchangedBut [.pc] s t

/-- R105 to R108: the four conditional skips on registers; `5xyN` and `9xyN` with N not 0 are unrecognized. -/
def Obligations.RegisterSkips : Prop :=
  (∀ x nn, decodeWord (0x3#4 ++ nibble x ++ nn) = .ok (.seImm x nn) ∧
    SkipsWhen (.seImm x nn) fun s => s.getV x = nn) ∧
  (∀ x nn, decodeWord (0x4#4 ++ nibble x ++ nn) = .ok (.sneImm x nn) ∧
    SkipsWhen (.sneImm x nn) fun s => s.getV x ≠ nn) ∧
  (∀ x y, decodeWord (0x5#4 ++ nibble x ++ nibble y ++ 0x0#4) = .ok (.seReg x y) ∧
    (∀ n : Fin 16, n ≠ 0 → ∃ why, decodeWord (0x5#4 ++ nibble x ++ nibble y ++ nibble n) = .error why) ∧
    SkipsWhen (.seReg x y) fun s => s.getV x = s.getV y) ∧
  (∀ x y, decodeWord (0x9#4 ++ nibble x ++ nibble y ++ 0x0#4) = .ok (.sneReg x y) ∧
    (∀ n : Fin 16, n ≠ 0 → ∃ why, decodeWord (0x9#4 ++ nibble x ++ nibble y ++ nibble n) = .error why) ∧
    SkipsWhen (.sneReg x y) fun s => s.getV x ≠ s.getV y)

/-- R109: a call faults exactly at depth 16; after one that does not, any run of steps, ticks and key events that
keeps its entry live and comes back to the same depth can return: the return goes to the address after the call,
with the stack pointer as before it. That the entry stays live along the run is the model's reading of R109, which
does not say it (log entry 19). -/
def Obligations.ReturnUndoesItsCall : Prop :=
  (∀ nnn s t, Running s → exec (.call nnn) s = .next t → (t.halted = true ↔ s.sp.val = 16)) ∧
  ∀ cfg nnn s t u, s.sp.val < 16 → exec (.call nnn) s = .next t → RunAtDepth cfg (s.sp.val + 1) t u →
    u.sp = t.sp → ∃ w, exec .ret u = .next w ∧ w.pc = s.pc + 2 ∧ w.sp = s.sp

/-- R13: from an even `pc`, an instruction that is no jump, call or return leaves `pc` even. -/
def Obligations.SequentialStepsKeepPcEven : Prop :=
  ∀ ins s t, isTransfer ins = false → s.pc.toNat % 2 = 0 → exec ins s = .next t → t.pc.toNat % 2 = 0

/-! ## Registers and arithmetic -/

/-- R122 to R127: loads, add immediate and logic give `V[x]` its value and write no flag. -/
def Obligations.LoadsAndLogic : Prop :=
  (∀ x nn, decodeWord (0x6#4 ++ nibble x ++ nn) = .ok (.ldImm x nn) ∧
    LoadsRegister (.ldImm x nn) x fun _ => nn.toNat) ∧
  (∀ x nn, decodeWord (0x7#4 ++ nibble x ++ nn) = .ok (.addImm x nn) ∧
    LoadsRegister (.addImm x nn) x fun s => ((s.getV x).toNat + nn.toNat) % 256) ∧
  (∀ x y, decodeWord (0x8#4 ++ nibble x ++ nibble y ++ 0x0#4) = .ok (.ldReg x y) ∧
    LoadsRegister (.ldReg x y) x fun s => (s.getV y).toNat) ∧
  (∀ x y, decodeWord (0x8#4 ++ nibble x ++ nibble y ++ 0x1#4) = .ok (.orReg x y) ∧
    LoadsRegister (.orReg x y) x fun s => (s.getV x).toNat ||| (s.getV y).toNat) ∧
  (∀ x y, decodeWord (0x8#4 ++ nibble x ++ nibble y ++ 0x2#4) = .ok (.andReg x y) ∧
    LoadsRegister (.andReg x y) x fun s => (s.getV x).toNat &&& (s.getV y).toNat) ∧
  (∀ x y, decodeWord (0x8#4 ++ nibble x ++ nibble y ++ 0x3#4) = .ok (.xorReg x y) ∧
    LoadsRegister (.xorReg x y) x fun s => (s.getV x).toNat ^^^ (s.getV y).toNat)

/-- R128: sum modulo 256 and carry. That VF holds the carry, not the sum, when `x` is F is the spec's decision D9. -/
def Obligations.AddSetsCarry : Prop :=
  ∀ x y s, ∃ t, exec (.addReg x y) s = .next t ∧
    (t.getV 15).toNat = (if 255 < (s.getV x).toNat + (s.getV y).toNat then 1 else 0) ∧
    (x ≠ 15 → (t.getV x).toNat = ((s.getV x).toNat + (s.getV y).toNat) % 256) ∧
    t.pc = s.pc + 2 ∧ UnchangedBut [.v x, .v 15, .pc] s t

/-- R129, R132: difference modulo 256, and VF says whether the minuend was strictly greater. That VF holds the
difference, not the flag, when `x` is F is the spec's decision D9. -/
def Obligations.SubtractionsSetNoBorrow : Prop :=
  ∀ x y s,
    (∃ t, exec (.subReg x y) s = .next t ∧
      (t.getV x).toNat = ((s.getV x).toNat + 256 - (s.getV y).toNat) % 256 ∧
      (x ≠ 15 → (t.getV 15).toNat = if (s.getV y).toNat < (s.getV x).toNat then 1 else 0) ∧
      t.pc = s.pc + 2 ∧ UnchangedBut [.v x, .v 15, .pc] s t) ∧
    (∃ t, exec (.subnReg x y) s = .next t ∧
      (t.getV x).toNat = ((s.getV y).toNat + 256 - (s.getV x).toNat) % 256 ∧
      (x ≠ 15 → (t.getV 15).toNat = if (s.getV x).toNat < (s.getV y).toNat then 1 else 0) ∧
      t.pc = s.pc + 2 ∧ UnchangedBut [.v x, .v 15, .pc] s t)

/-- R130, R133: a shift of `V[x]` by one place, whatever `y`, and VF holds the bit shifted out. That VF holds the
shifted value, not the bit, when `x` is F is the spec's decision D9. -/
def Obligations.ShiftsSetTheBitShiftedOut : Prop :=
  ∀ x y s,
    (∃ t, exec (.shr x y) s = .next t ∧ (t.getV x).toNat = (s.getV x).toNat / 2 ∧
      (x ≠ 15 → (t.getV 15).toNat = (s.getV x).toNat % 2) ∧
      t.pc = s.pc + 2 ∧ UnchangedBut [.v x, .v 15, .pc] s t) ∧
    (∃ t, exec (.shl x y) s = .next t ∧ (t.getV x).toNat = (s.getV x).toNat * 2 % 256 ∧
      (x ≠ 15 → (t.getV 15).toNat = (s.getV x).toNat / 128) ∧
      t.pc = s.pc + 2 ∧ UnchangedBut [.v x, .v 15, .pc] s t)

/-- R131: `V[x]` receives a free byte masked by `nn`, a new one each time. Nothing is said of the byte's value; the
count that picks it is the model's own (log entry 6). -/
def Obligations.RandomByteIsMasked : Prop :=
  ∀ x nn, decodeWord (0xC#4 ++ nibble x ++ nn) = .ok (.rnd x nn) ∧
    ∀ s, ∃ t, exec (.rnd x nn) s = .next t ∧ t.getV x = Config.randomByte s.draws &&& nn ∧
      (∀ b, nn.getLsbD b = false → (t.getV x).getLsbD b = false) ∧ (t.getV x).toNat ≤ nn.toNat ∧
      t.draws = s.draws + 1 ∧ t.pc = s.pc + 2 ∧ UnchangedBut [.v x, .pc, .draws] s t

/-! ## The index register and memory -/

/-- R140. -/
def Obligations.LoadIndexImmediate : Prop :=
  ∀ nnn : Addr12, decodeWord (0xA#4 ++ nnn) = .ok (.ldI nnn) ∧ LoadsIndex (.ldI nnn) fun _ => nnn.toNat

/-- R141, R142: the sum modulo 65536 (the spec's decision D8), and five times all of `V[x]` (decision D21); neither
writes VF. -/
def Obligations.IndexArithmetic : Prop :=
  ∀ x, LoadsIndex (.addI x) (fun s => (s.i.toNat + (s.getV x).toNat) % 65536) ∧
    LoadsIndex (.ldGlyph x) (fun s => (s.getV x).toNat * 5)

/-- R143: the three decimal digits at `I`, `I + 1`, `I + 2`, hundreds first. The addresses modulo 4096 are the spec's
decision D4. -/
def Obligations.DecimalDigitsStored : Prop :=
  ∀ x, decodeWord (0xF#4 ++ nibble x ++ 0x33#8) = .ok (.ldBcd x) ∧
    ∀ s, s.mem.wf = true → ∃ t, exec (.ldBcd x) s = .next t ∧
      (t.mem.read ((s.i.toNat + 0) % 4096)).toNat = (s.getV x).toNat / 100 ∧
      (t.mem.read ((s.i.toNat + 1) % 4096)).toNat = (s.getV x).toNat / 10 % 10 ∧
      (t.mem.read ((s.i.toNat + 2) % 4096)).toNat = (s.getV x).toNat % 10 ∧
      t.pc = s.pc + 2 ∧ UnchangedBut (.pc :: bytePieces s 3) s t

/-- R144: `V[0]` to `V[x]` at `I` to `I + x`; `I` and the registers stay. The addresses modulo 4096 are the spec's
decision D4. -/
def Obligations.RegistersStored : Prop :=
  ∀ x, decodeWord (0xF#4 ++ nibble x ++ 0x55#8) = .ok (.storeRegs x) ∧
    ∀ s, s.mem.wf = true → ∃ t, exec (.storeRegs x) s = .next t ∧
      (∀ k : Reg, k ≤ x → t.mem.read ((s.i.toNat + k.val) % 4096) = s.getV k) ∧
      t.pc = s.pc + 2 ∧ UnchangedBut (.pc :: bytePieces s (x.val + 1)) s t

/-- R145: `I` to `I + x` into `V[0]` to `V[x]`; `I` and the registers above `V[x]` stay. The addresses modulo 4096
are the spec's decision D4. -/
def Obligations.RegistersLoaded : Prop :=
  ∀ x, decodeWord (0xF#4 ++ nibble x ++ 0x65#8) = .ok (.loadRegs x) ∧
    ∀ s, ∃ t, exec (.loadRegs x) s = .next t ∧
      (∀ k : Reg, k ≤ x → t.getV k = s.mem.read ((s.i.toNat + k.val) % 4096)) ∧
      t.pc = s.pc + 2 ∧ UnchangedBut (.pc :: regPieces x) s t

/-- R64, for `Fx55`: a byte it stores at an address of the next instruction is the byte the next fetch reads there.
The addresses modulo 4096, of the store and of the fetch, are the spec's decision D4. `Fx33` has a statement of its
own, StoredDigitIsSeenByTheNextFetch. -/
def Obligations.StoreIsSeenByTheNextFetch : Prop :=
  ∀ x s, s.mem.wf = true → ∃ t, exec (.storeRegs x) s = .next t ∧
    ∀ k : Reg, k ≤ x →
      ((t.pc.toNat % 4096 = (s.i.toNat + k.val) % 4096) → t.fetchWord.extractLsb 15 8 = s.getV k) ∧
      (((t.pc.toNat + 1) % 4096 = (s.i.toNat + k.val) % 4096) → t.fetchWord.extractLsb 7 0 = s.getV k)

/-! ## The framebuffer -/

/-- R161: every pixel off, the sizes kept, VF not written. -/
def Obligations.ClearTurnsEveryPixelOff : Prop :=
  decodeWord 0x00E0 = .ok .cls ∧
    ∀ s, ∃ t, exec .cls s = .next t ∧ (∀ r c, t.fb.pixel r c = false) ∧ t.fb.rows = s.fb.rows ∧
      t.fb.cols = s.fb.cols ∧ t.pc = s.pc + 2 ∧ UnchangedBut [.fb, .pc] s t

/-- R162, in every state and for every framebuffer size: `Dxyn` completes, writes 0 or 1 to VF, keeps the sizes and
changes nothing but the pixels, VF and `pc`; with `n` = 0 no pixel changes and VF is 0. -/
def Obligations.DrawCompletesWithItsFrame : Prop :=
  ∀ x y n s, ∃ t, exec (.drw x y n) s = .next t ∧ (t.getV 15 = 0 ∨ t.getV 15 = 1) ∧
    t.fb.rows = s.fb.rows ∧ t.fb.cols = s.fb.cols ∧ (n = 0 → t.fb = s.fb ∧ t.getV 15 = 0) ∧
    t.pc = s.pc + 2 ∧ UnchangedBut [.fb, .v 15, .pc] s t

/-- R160, R162, R163: where no two bits of a sprite share a pixel, `Dxyn` inverts exactly the pixels under the
sprite's 1 bits, wrapped at both edges, and VF says whether one of them was on; the coordinates are those before
VF is written. -/
def Obligations.DrawInvertsThePixelsItCovers : Prop :=
  ∀ x y n s, s.fb.wf = true → RoomForSprite s → ∃ t, exec (.drw x y n) s = .next t ∧
    (∀ r c, r < s.fb.rows → c < s.fb.cols →
      (Covers s x y n.val r c → t.fb.pixel r c = !s.fb.pixel r c) ∧
      (¬ Covers s x y n.val r c → t.fb.pixel r c = s.fb.pixel r c)) ∧
    (t.getV 15 = 1 ↔ ∃ r c, Covers s x y n.val r c ∧ s.fb.pixel r c = true)

/-- R160, R162, for every framebuffer size: each 1 bit of the sprite, in order, inverts its pixel, and VF says
whether some bit found its pixel on just before it inverted it. -/
def Obligations.DrawInvertsOncePerSpriteBit : Prop :=
  ∀ x y n s, s.fb.wf = true → ∃ t, exec (.drw x y n) s = .next t ∧
    (∀ r c, r < s.fb.rows → c < s.fb.cols → t.fb.pixel r c = invertedBy s (visits s x y n.val) (r, c)) ∧
    (t.getV 15 = 1 ↔ ∃ k, ∃ h : k < (visits s x y n.val).length,
      invertedBy s ((visits s x y n.val).take k) (visits s x y n.val)[k] = true)

/-- R164 (a), for `x` and `y` other than F: drawing the same sprite twice at the same coordinates restores the
framebuffer, and the second draw collides iff the sprite covers a pixel that was off before the first. For every `x`
and `y` see DrawingAgainAtTheSameCoordinates. -/
def Obligations.DrawingTwiceRestoresTheFramebuffer : Prop :=
  ∀ x y n s, x ≠ 15 → y ≠ 15 → s.fb.wf = true → RoomForSprite s →
    ∃ t u, exec (.drw x y n) s = .next t ∧ exec (.drw x y n) t = .next u ∧ u.fb = s.fb ∧
      (u.getV 15 = 1 ↔ ∃ r c, Covers s x y n.val r c ∧ s.fb.pixel r c = false)

/-- R164 (c): after `00E0` a draw never collides. -/
def Obligations.NoCollisionAfterClear : Prop :=
  ∀ x y n s, s.fb.wf = true → RoomForSprite s →
    ∃ t u, exec .cls s = .next t ∧ exec (.drw x y n) t = .next u ∧ u.getV 15 = 0

/-- R42, R165: the host reads the whole grid, row 0 and column 0 first. -/
def Obligations.FramebufferReadGivesEveryPixel : Prop :=
  ∀ s, (fbRead s).length = s.fb.rows ∧
    ∀ r c, r < s.fb.rows → c < s.fb.cols → ((fbRead s)[r]?.bind fun row => row[c]?) = some (s.fb.pixel r c)

/-! ## Keys and timers -/

/-- R170 to R172: the skips on a key; the key is the low four bits of `V[x]` (the spec's decision D10). -/
def Obligations.KeySkips : Prop :=
  ∀ x, SkipsWhen (.skp x) (fun s => s.keys[(s.getV x).toNat % 16] = true) ∧
    SkipsWhen (.sknp x) (fun s => s.keys[(s.getV x).toNat % 16] = false)

/-- R173: with a key down `Fx0A` stores the last key pressed (the spec's decision D11) and advances; with none down
the step changes nothing at all. -/
def Obligations.KeyWaitPolls : Prop :=
  ∀ x s,
    ((∃ k : Key, s.isPressed k = true) → ∃ t, exec (.ldVxKey x) s = .next t ∧
      (t.getV x).toNat = s.lastKey.val ∧ t.pc = s.pc + 2 ∧ UnchangedBut [.v x, .pc] s t) ∧
    ((∀ k : Key, s.isPressed k = false) → exec (.ldVxKey x) s = .next s)

/-- R174 to R176: reading `DT`, writing `DT`, writing `ST`. -/
def Obligations.TimerAccess : Prop :=
  ∀ x,
    (decodeWord (0xF#4 ++ nibble x ++ 0x07#8) = .ok (.ldVxDt x) ∧
      LoadsRegister (.ldVxDt x) x fun s => s.dt.toNat) ∧
    (decodeWord (0xF#4 ++ nibble x ++ 0x15#8) = .ok (.ldDtVx x) ∧
      ∀ s, ∃ t, exec (.ldDtVx x) s = .next t ∧ t.dt = s.getV x ∧ t.pc = s.pc + 2 ∧
        UnchangedBut [.dt, .pc] s t) ∧
    (decodeWord (0xF#4 ++ nibble x ++ 0x18#8) = .ok (.ldStVx x) ∧
      ∀ s, ∃ t, exec (.ldStVx x) s = .next t ∧ t.st = s.getV x ∧ t.pc = s.pc + 2 ∧
        UnchangedBut [.st, .pc] s t)

/-- R211: a tick takes each timer that is not zero one step down and touches nothing else; it emits a tone exactly
when it finds `ST` nonzero. The history that holds the tone is the model's own (log entry 7). -/
def Obligations.TickDecaysBothTimers : Prop :=
  ∀ s, Running s → (tick s).dt.toNat = s.dt.toNat - 1 ∧ (tick s).st.toNat = s.st.toNat - 1 ∧
    (s.st ≠ 0 → (tick s).outputs = .tone :: s.outputs) ∧ (s.st = 0 → (tick s).outputs = s.outputs) ∧
    UnchangedBut [.dt, .st, .outputs] s (tick s)

/-- R212: `k` ticks with no step between emit one tone for each count of `ST`, at most `ST` in all, and leave `ST`
lower by as many. The history that holds them is the model's own (log entry 7). -/
def Obligations.TicksEmitOneTonePerCount : Prop :=
  ∀ s k, Running s → (tick^[k] s).outputs = List.replicate (min k s.st.toNat) .tone ++ s.outputs ∧
    (tick^[k] s).st.toNat = s.st.toNat - k

/-- R215, R216: press sets the key's flag and records it; release clears the flag and leaves the record. -/
def Obligations.PressAndRelease : Prop :=
  ∀ k s, Running s →
    ((press k s).isPressed k = true ∧ (press k s).lastKey = k ∧ UnchangedBut [.key k, .lastKey] s (press k s)) ∧
    ((release k s).isPressed k = false ∧ UnchangedBut [.key k] s (release k s))

/-! ## Rules of the whole machine -/

/-- R12: an instruction changes no register but its destination, the registers `Fx65` loads and, for the six that
set a flag, VF. -/
def Obligations.OnlyDestinationRegistersChange : Prop :=
  ∀ ins s t r, exec ins s = .next t → writesReg ins r = false → t.getV r = s.getV r

/-- R15, R16, R17, R19, R20, R21, R146, R170: each piece of state outside the registers is written by the
instructions the spec names for it and by no other. -/
def Obligations.OnlyNamedInstructionsWrite : Prop :=
  ∀ ins s t, exec ins s = .next t →
    (t.i ≠ s.i → (∃ nnn, ins = .ldI nnn) ∨ (∃ x, ins = .addI x) ∨ ∃ x, ins = .ldGlyph x) ∧
    (t.sp ≠ s.sp → ins = .ret ∨ ∃ nnn, ins = .call nnn) ∧
    (t.stack ≠ s.stack → ∃ nnn, ins = .call nnn) ∧
    (t.mem ≠ s.mem → (∃ x, ins = .ldBcd x) ∨ ∃ x, ins = .storeRegs x) ∧
    (t.dt ≠ s.dt → ∃ x, ins = .ldDtVx x) ∧
    (t.st ≠ s.st → ∃ x, ins = .ldStVx x) ∧
    (t.fb ≠ s.fb → ins = .cls ∨ ∃ x y n, ins = .drw x y n) ∧
    t.keys = s.keys ∧ t.lastKey = s.lastKey

/-- R19: no instruction reads `ST`: two cores that differ only in `ST` step to cores that differ in nothing else. -/
def Obligations.SoundTimerIsNeverRead : Prop :=
  ∀ s b, ∃ t u, step s = .next t ∧ step (s.setSt b) = .next u ∧ u.setSt 0 = t.setSt 0

/-! ## Reset -/

/-- R231: everything but memory after an accepted reset, from any core or none. The values of `I`, `fb` and the keys
are the spec's decision D15, those of the fault state D13; nothing is said of the stack entries and `last_key`. -/
def Obligations.ResetSetsEveryRegister : Prop :=
  ∀ cfg bytes m, bytes.length ≤ 3584 → ∃ t, resetTo cfg (some bytes) m = (some t, .accepted) ∧
    (∀ r, t.getV r = 0) ∧ t.pc = 0x200 ∧ t.i = 0 ∧ t.sp = 0 ∧ t.dt = 0 ∧ t.st = 0 ∧
    (∀ k, t.isPressed k = false) ∧ t.halted = false ∧ t.faultCause = .none ∧ t.faultInstr = 0 ∧ t.faultPc = 0 ∧
    t.fb.rows = cfg.fbH ∧ t.fb.cols = cfg.fbW ∧ ∀ r c, t.fb.pixel r c = false

/-- R51: memory after an accepted reset: the glyphs, zeros, the image from 0x200, zeros. The zeros are the spec's
decision D3. -/
def Obligations.ResetFillsMemory : Prop :=
  ∀ (cfg : Config) (bytes : List Byte) (m : Option State), bytes.length ≤ 3584 →
    ∃ t, resetTo cfg (some bytes) m = (some t, .accepted) ∧
      (∀ d (hd : d < 16) (k) (hk : k < 5), t.mem.read (5 * d + k) = cfg.glyphs[d][k]) ∧
      (∀ a, 80 ≤ a → a < 512 → t.mem.read a = 0) ∧
      (∀ k (hk : k < bytes.length), t.mem.read (0x200 + k) = bytes[k]) ∧
      (∀ a, 0x200 + bytes.length ≤ a → a < 4096 → t.mem.read a = 0)

/-- R232: an image that cannot be read or is longer than 3584 bytes is refused with result 3 and the core stays as it
was (the spec's decision D16). -/
def Obligations.ResetRefusesWithoutEffect : Prop :=
  ∀ cfg image m, (image = none ∨ ∃ bytes, image = some bytes ∧ 3584 < bytes.length) →
    (resetTo cfg image m).1 = m ∧ (resetTo cfg image m).2.code = 3

/-- R232, U15: on a core no accepted reset has started, nothing but reset is defined. -/
def Obligations.UnstartedCoreIsStuck : Prop :=
  ∀ cfg e, e.isReset = false → transition cfg e none = .fault .notStarted

/-! ## Invariants -/

/-- The invariant holds after reset. The canonical forms in it are the model's own (log entry 15). -/
def Obligations.ResetStateHasTheInvariant : Prop := CoreInv State.reset

/-- Every step keeps the invariant: memory and framebuffer stay canonical, and the fault record agrees with the
state (R194, R196, R20). The canonical forms are the model's own (log entry 15). -/
def Obligations.StepKeepsTheInvariant : Prop := ∀ s t, CoreInv s → step s = .next t → CoreInv t

/-- Whatever the host does, in any order, a started core has the invariant and a framebuffer of the sizes its
parameters give (R20, R44). The canonical forms in the invariant are the model's own (log entry 15). The step of this
induction is EveryTransitionKeepsTheInvariant. -/
def Obligations.ReachableCoresHaveTheInvariant : Prop :=
  ∀ cfg s, cfg.WellFormed → Reachable cfg (some s) → CoreInv s ∧ s.fb.rows = cfg.fbH ∧ s.fb.cols = cfg.fbW

/-! ## Wider forms of statements above -/

/-- R64, for `Fx33`: a decimal digit it stores at an address of the next instruction is the byte the next fetch reads
there. The addresses modulo 4096, of the store and of the fetch, are the spec's decision D4. -/
def Obligations.StoredDigitIsSeenByTheNextFetch : Prop :=
  ∀ x s, s.mem.wf = true → ∃ t, exec (.ldBcd x) s = .next t ∧
    ∀ k < 3,
      ((t.pc.toNat % 4096 = (s.i.toNat + k) % 4096) →
        (t.fetchWord.extractLsb 15 8).toNat = (s.getV x).toNat / 10 ^ (2 - k) % 10) ∧
      (((t.pc.toNat + 1) % 4096 = (s.i.toNat + k) % 4096) →
        (t.fetchWord.extractLsb 7 0).toNat = (s.getV x).toNat / 10 ^ (2 - k) % 10)

/-- R163, R164 (a), for every `x` and `y`, F too: a second draw of the same sprite that finds its coordinates as the
first found them restores the framebuffer, and collides iff the sprite covers a pixel that was off before the first.
Where `x` or `y` is F the coordinates are as they were exactly when the first draw left VF as it was. -/
def Obligations.DrawingAgainAtTheSameCoordinates : Prop :=
  ∀ x y n s, s.fb.wf = true → RoomForSprite s →
    ∃ t u, exec (.drw x y n) s = .next t ∧ exec (.drw x y n) t = .next u ∧
      (t.getV x = s.getV x → t.getV y = s.getV y → u.fb = s.fb ∧
        (u.getV 15 = 1 ↔ ∃ r c, Covers s x y n.val r c ∧ s.fb.pixel r c = false))

/-- Every transition of the host, from any core that has the invariant, keeps it: a step, a tick, a key event, an
accepted and a refused reset (R20, R44, R194, R196, R230, R232). The canonical forms in the invariant are the
model's own (log entry 15). -/
def Obligations.EveryTransitionKeepsTheInvariant : Prop :=
  ∀ cfg e m m', cfg.WellFormed → HostInv cfg m → transition cfg e m = .next m' → HostInv cfg m'
end

