-- ==== Sys2Proof/Laws/Decode.lean ====
section
/-!
SUPPORT. The fields of a word as numbers, the fields of a word put together from its parts, and a word put together
from its fields (spec 30_encoding.md R82, R84).
-/

namespace Sys2Proof

/-! ## Fields as numbers -/

theorem toNat_append_eq {n m : Nat} (x : BitVec n) (y : BitVec m) :
    (x ++ y).toNat = x.toNat * 2 ^ m + y.toNat := by
  rw [BitVec.toNat_append, ← Nat.shiftLeft_add_eq_or_of_lt y.isLt, Nat.shiftLeft_eq]

theorem toNat_fieldOp (w : Word) : (fieldOp w).toNat = w.toNat / 4096 := by
  have := w.isLt
  simp only [fieldOp, BitVec.extractLsb_toNat, Nat.shiftRight_eq_div_pow]
  omega

theorem val_fieldX (w : Word) : (fieldX w).val = w.toNat / 256 % 16 := by
  simp only [fieldX, BitVec.extractLsb_toNat, Nat.shiftRight_eq_div_pow]

theorem val_fieldY (w : Word) : (fieldY w).val = w.toNat / 16 % 16 := by
  simp only [fieldY, BitVec.extractLsb_toNat, Nat.shiftRight_eq_div_pow]

theorem val_fieldN (w : Word) : (fieldN w).val = w.toNat % 16 := by
  simp only [fieldN, BitVec.extractLsb_toNat, Nat.shiftRight_eq_div_pow]
  omega

theorem toNat_fieldNN (w : Word) : (fieldNN w).toNat = w.toNat % 256 := by
  simp only [fieldNN, BitVec.extractLsb_toNat, Nat.shiftRight_eq_div_pow]
  omega

theorem toNat_fieldNNN (w : Word) : (fieldNNN w).toNat = w.toNat % 4096 := by
  simp only [fieldNNN, BitVec.extractLsb_toNat, Nat.shiftRight_eq_div_pow]
  omega

theorem toNat_nibble (k : Fin 16) : (nibble k).toNat = k.val := by
  revert k; decide

/-- The register of `Bnnn` is the top digit of its address (R104). -/
theorem fieldX_eq_topDigit (w : Word) : (fieldX w).val = (fieldNNN w).toNat / 256 := by
  rw [val_fieldX, toNat_fieldNNN]
  omega

/-! ## Fields of a word put together -/

theorem toNat_NNN (op : BitVec 4) (nnn : Addr12) : (op ++ nnn : Word).toNat = op.toNat * 4096 + nnn.toNat :=
  toNat_append_eq op nnn

theorem toNat_XNN (op : BitVec 4) (x : Reg) (nn : Byte) :
    (op ++ nibble x ++ nn : Word).toNat = (op.toNat * 16 + x.val) * 256 + nn.toNat := by
  simp only [toNat_append_eq, toNat_nibble, Nat.reducePow]

theorem toNat_XYN (op : BitVec 4) (x y : Reg) (n : BitVec 4) :
    (op ++ nibble x ++ nibble y ++ n : Word).toNat = ((op.toNat * 16 + x.val) * 16 + y.val) * 16 + n.toNat := by
  simp only [toNat_append_eq, toNat_nibble, Nat.reducePow]

@[simp] theorem fieldOp_NNN (op : BitVec 4) (nnn : Addr12) : fieldOp (op ++ nnn) = op := by
  refine BitVec.eq_of_toNat_eq ?_
  rw [toNat_fieldOp, toNat_NNN]
  omega

@[simp] theorem fieldNNN_NNN (op : BitVec 4) (nnn : Addr12) : fieldNNN (op ++ nnn) = nnn := by
  refine BitVec.eq_of_toNat_eq ?_
  rw [toNat_fieldNNN, toNat_NNN]
  omega

@[simp] theorem fieldOp_XNN (op : BitVec 4) (x : Reg) (nn : Byte) : fieldOp (op ++ nibble x ++ nn) = op := by
  refine BitVec.eq_of_toNat_eq ?_
  rw [toNat_fieldOp, toNat_XNN]
  omega

@[simp] theorem fieldX_XNN (op : BitVec 4) (x : Reg) (nn : Byte) : fieldX (op ++ nibble x ++ nn) = x := by
  refine Fin.ext ?_
  rw [val_fieldX, toNat_XNN]
  omega

@[simp] theorem fieldNN_XNN (op : BitVec 4) (x : Reg) (nn : Byte) : fieldNN (op ++ nibble x ++ nn) = nn := by
  refine BitVec.eq_of_toNat_eq ?_
  rw [toNat_fieldNN, toNat_XNN]
  omega

@[simp] theorem fieldOp_XYN (op : BitVec 4) (x y : Reg) (n : BitVec 4) :
    fieldOp (op ++ nibble x ++ nibble y ++ n) = op := by
  refine BitVec.eq_of_toNat_eq ?_
  rw [toNat_fieldOp, toNat_XYN]
  omega

@[simp] theorem fieldX_XYN (op : BitVec 4) (x y : Reg) (n : BitVec 4) :
    fieldX (op ++ nibble x ++ nibble y ++ n) = x := by
  refine Fin.ext ?_
  rw [val_fieldX, toNat_XYN]
  omega

@[simp] theorem fieldY_XYN (op : BitVec 4) (x y : Reg) (n : BitVec 4) :
    fieldY (op ++ nibble x ++ nibble y ++ n) = y := by
  refine Fin.ext ?_
  rw [val_fieldY, toNat_XYN]
  omega

@[simp] theorem fieldN_XYN (op : BitVec 4) (x y : Reg) (n : Fin 16) :
    fieldN (op ++ nibble x ++ nibble y ++ nibble n) = n := by
  refine Fin.ext ?_
  rw [val_fieldN, toNat_XYN, toNat_nibble]
  omega

/-! ## The major opcode decides the case -/

/-- The sixteen values of `op`, named: the last row of the decoder's match is `op` = F. -/
theorem op_cases (op : BitVec 4) :
    op = 0x0 ∨ op = 0x1 ∨ op = 0x2 ∨ op = 0x3 ∨ op = 0x4 ∨ op = 0x5 ∨ op = 0x6 ∨ op = 0x7 ∨
    op = 0x8 ∨ op = 0x9 ∨ op = 0xA ∨ op = 0xB ∨ op = 0xC ∨ op = 0xD ∨ op = 0xE ∨ op = 0xF := by
  revert op; decide

/-- Decoding depends on the word through its major opcode first. -/
theorem decodeWord_of_op {w : Word} {op : BitVec 4} (h : fieldOp w = op) : decodeWord w = decodeOp op w := by
  rw [decodeWord, h]

/-! ## A word from its fields -/

theorem word_eq_NNN (w : Word) : encodeNNN (fieldOp w) (fieldNNN w) = w := by
  refine BitVec.eq_of_toNat_eq ?_
  have := w.isLt
  rw [encodeNNN, toNat_NNN, toNat_fieldOp, toNat_fieldNNN]
  omega

theorem word_eq_XNN (w : Word) : encodeXNN (fieldOp w) (fieldX w) (fieldNN w) = w := by
  refine BitVec.eq_of_toNat_eq ?_
  have := w.isLt
  rw [encodeXNN, toNat_XNN, toNat_fieldOp, val_fieldX, toNat_fieldNN]
  omega

theorem word_eq_XYN (w : Word) : encodeXYN (fieldOp w) (fieldX w) (fieldY w) (fieldN w) = w := by
  refine BitVec.eq_of_toNat_eq ?_
  have := w.isLt
  rw [encodeXYN, toNat_XYN, toNat_fieldOp, val_fieldX, val_fieldY, toNat_nibble, val_fieldN]
  omega

end Sys2Proof
end

