-- ==== Sys2Proof/Laws/State.lean ====
section
/-!
SUPPORT. What each named update of the state does to each field, one lemma per field per update, and to the reads
of registers and keys.
-/

namespace Sys2Proof.Machine

variable (s : State)


/-! ## `setV` -/

@[simp] theorem State.setV_v (x : Reg) (b : Byte) : (s.setV x b).v = s.v.set x b := rfl
@[simp] theorem State.setV_pc (x : Reg) (b : Byte) : (s.setV x b).pc = s.pc := rfl
@[simp] theorem State.setV_i (x : Reg) (b : Byte) : (s.setV x b).i = s.i := rfl
@[simp] theorem State.setV_sp (x : Reg) (b : Byte) : (s.setV x b).sp = s.sp := rfl
@[simp] theorem State.setV_stack (x : Reg) (b : Byte) : (s.setV x b).stack = s.stack := rfl
@[simp] theorem State.setV_mem (x : Reg) (b : Byte) : (s.setV x b).mem = s.mem := rfl
@[simp] theorem State.setV_dt (x : Reg) (b : Byte) : (s.setV x b).dt = s.dt := rfl
@[simp] theorem State.setV_st (x : Reg) (b : Byte) : (s.setV x b).st = s.st := rfl
@[simp] theorem State.setV_fb (x : Reg) (b : Byte) : (s.setV x b).fb = s.fb := rfl
@[simp] theorem State.setV_keys (x : Reg) (b : Byte) : (s.setV x b).keys = s.keys := rfl
@[simp] theorem State.setV_lastKey (x : Reg) (b : Byte) : (s.setV x b).lastKey = s.lastKey := rfl
@[simp] theorem State.setV_halted (x : Reg) (b : Byte) : (s.setV x b).halted = s.halted := rfl
@[simp] theorem State.setV_faultCause (x : Reg) (b : Byte) : (s.setV x b).faultCause = s.faultCause := rfl
@[simp] theorem State.setV_faultInstr (x : Reg) (b : Byte) : (s.setV x b).faultInstr = s.faultInstr := rfl
@[simp] theorem State.setV_faultPc (x : Reg) (b : Byte) : (s.setV x b).faultPc = s.faultPc := rfl
@[simp] theorem State.setV_draws (x : Reg) (b : Byte) : (s.setV x b).draws = s.draws := rfl
@[simp] theorem State.setV_outputs (x : Reg) (b : Byte) : (s.setV x b).outputs = s.outputs := rfl

/-! ## `setRegs` -/

@[simp] theorem State.setRegs_v (bs : List Byte) : (s.setRegs bs).v = putRegs s.v 0 bs := rfl
@[simp] theorem State.setRegs_pc (bs : List Byte) : (s.setRegs bs).pc = s.pc := rfl
@[simp] theorem State.setRegs_i (bs : List Byte) : (s.setRegs bs).i = s.i := rfl
@[simp] theorem State.setRegs_sp (bs : List Byte) : (s.setRegs bs).sp = s.sp := rfl
@[simp] theorem State.setRegs_stack (bs : List Byte) : (s.setRegs bs).stack = s.stack := rfl
@[simp] theorem State.setRegs_mem (bs : List Byte) : (s.setRegs bs).mem = s.mem := rfl
@[simp] theorem State.setRegs_dt (bs : List Byte) : (s.setRegs bs).dt = s.dt := rfl
@[simp] theorem State.setRegs_st (bs : List Byte) : (s.setRegs bs).st = s.st := rfl
@[simp] theorem State.setRegs_fb (bs : List Byte) : (s.setRegs bs).fb = s.fb := rfl
@[simp] theorem State.setRegs_keys (bs : List Byte) : (s.setRegs bs).keys = s.keys := rfl
@[simp] theorem State.setRegs_lastKey (bs : List Byte) : (s.setRegs bs).lastKey = s.lastKey := rfl
@[simp] theorem State.setRegs_halted (bs : List Byte) : (s.setRegs bs).halted = s.halted := rfl
@[simp] theorem State.setRegs_faultCause (bs : List Byte) : (s.setRegs bs).faultCause = s.faultCause := rfl
@[simp] theorem State.setRegs_faultInstr (bs : List Byte) : (s.setRegs bs).faultInstr = s.faultInstr := rfl
@[simp] theorem State.setRegs_faultPc (bs : List Byte) : (s.setRegs bs).faultPc = s.faultPc := rfl
@[simp] theorem State.setRegs_draws (bs : List Byte) : (s.setRegs bs).draws = s.draws := rfl
@[simp] theorem State.setRegs_outputs (bs : List Byte) : (s.setRegs bs).outputs = s.outputs := rfl

/-! ## `setI` -/

@[simp] theorem State.setI_v (w : Word) : (s.setI w).v = s.v := rfl
@[simp] theorem State.setI_pc (w : Word) : (s.setI w).pc = s.pc := rfl
@[simp] theorem State.setI_i (w : Word) : (s.setI w).i = w := rfl
@[simp] theorem State.setI_sp (w : Word) : (s.setI w).sp = s.sp := rfl
@[simp] theorem State.setI_stack (w : Word) : (s.setI w).stack = s.stack := rfl
@[simp] theorem State.setI_mem (w : Word) : (s.setI w).mem = s.mem := rfl
@[simp] theorem State.setI_dt (w : Word) : (s.setI w).dt = s.dt := rfl
@[simp] theorem State.setI_st (w : Word) : (s.setI w).st = s.st := rfl
@[simp] theorem State.setI_fb (w : Word) : (s.setI w).fb = s.fb := rfl
@[simp] theorem State.setI_keys (w : Word) : (s.setI w).keys = s.keys := rfl
@[simp] theorem State.setI_lastKey (w : Word) : (s.setI w).lastKey = s.lastKey := rfl
@[simp] theorem State.setI_halted (w : Word) : (s.setI w).halted = s.halted := rfl
@[simp] theorem State.setI_faultCause (w : Word) : (s.setI w).faultCause = s.faultCause := rfl
@[simp] theorem State.setI_faultInstr (w : Word) : (s.setI w).faultInstr = s.faultInstr := rfl
@[simp] theorem State.setI_faultPc (w : Word) : (s.setI w).faultPc = s.faultPc := rfl
@[simp] theorem State.setI_draws (w : Word) : (s.setI w).draws = s.draws := rfl
@[simp] theorem State.setI_outputs (w : Word) : (s.setI w).outputs = s.outputs := rfl

/-! ## `setDt` -/

@[simp] theorem State.setDt_v (b : Byte) : (s.setDt b).v = s.v := rfl
@[simp] theorem State.setDt_pc (b : Byte) : (s.setDt b).pc = s.pc := rfl
@[simp] theorem State.setDt_i (b : Byte) : (s.setDt b).i = s.i := rfl
@[simp] theorem State.setDt_sp (b : Byte) : (s.setDt b).sp = s.sp := rfl
@[simp] theorem State.setDt_stack (b : Byte) : (s.setDt b).stack = s.stack := rfl
@[simp] theorem State.setDt_mem (b : Byte) : (s.setDt b).mem = s.mem := rfl
@[simp] theorem State.setDt_dt (b : Byte) : (s.setDt b).dt = b := rfl
@[simp] theorem State.setDt_st (b : Byte) : (s.setDt b).st = s.st := rfl
@[simp] theorem State.setDt_fb (b : Byte) : (s.setDt b).fb = s.fb := rfl
@[simp] theorem State.setDt_keys (b : Byte) : (s.setDt b).keys = s.keys := rfl
@[simp] theorem State.setDt_lastKey (b : Byte) : (s.setDt b).lastKey = s.lastKey := rfl
@[simp] theorem State.setDt_halted (b : Byte) : (s.setDt b).halted = s.halted := rfl
@[simp] theorem State.setDt_faultCause (b : Byte) : (s.setDt b).faultCause = s.faultCause := rfl
@[simp] theorem State.setDt_faultInstr (b : Byte) : (s.setDt b).faultInstr = s.faultInstr := rfl
@[simp] theorem State.setDt_faultPc (b : Byte) : (s.setDt b).faultPc = s.faultPc := rfl
@[simp] theorem State.setDt_draws (b : Byte) : (s.setDt b).draws = s.draws := rfl
@[simp] theorem State.setDt_outputs (b : Byte) : (s.setDt b).outputs = s.outputs := rfl

/-! ## `setSt` -/

@[simp] theorem State.setSt_v (b : Byte) : (s.setSt b).v = s.v := rfl
@[simp] theorem State.setSt_pc (b : Byte) : (s.setSt b).pc = s.pc := rfl
@[simp] theorem State.setSt_i (b : Byte) : (s.setSt b).i = s.i := rfl
@[simp] theorem State.setSt_sp (b : Byte) : (s.setSt b).sp = s.sp := rfl
@[simp] theorem State.setSt_stack (b : Byte) : (s.setSt b).stack = s.stack := rfl
@[simp] theorem State.setSt_mem (b : Byte) : (s.setSt b).mem = s.mem := rfl
@[simp] theorem State.setSt_dt (b : Byte) : (s.setSt b).dt = s.dt := rfl
@[simp] theorem State.setSt_st (b : Byte) : (s.setSt b).st = b := rfl
@[simp] theorem State.setSt_fb (b : Byte) : (s.setSt b).fb = s.fb := rfl
@[simp] theorem State.setSt_keys (b : Byte) : (s.setSt b).keys = s.keys := rfl
@[simp] theorem State.setSt_lastKey (b : Byte) : (s.setSt b).lastKey = s.lastKey := rfl
@[simp] theorem State.setSt_halted (b : Byte) : (s.setSt b).halted = s.halted := rfl
@[simp] theorem State.setSt_faultCause (b : Byte) : (s.setSt b).faultCause = s.faultCause := rfl
@[simp] theorem State.setSt_faultInstr (b : Byte) : (s.setSt b).faultInstr = s.faultInstr := rfl
@[simp] theorem State.setSt_faultPc (b : Byte) : (s.setSt b).faultPc = s.faultPc := rfl
@[simp] theorem State.setSt_draws (b : Byte) : (s.setSt b).draws = s.draws := rfl
@[simp] theorem State.setSt_outputs (b : Byte) : (s.setSt b).outputs = s.outputs := rfl

/-! ## `setMem` -/

@[simp] theorem State.setMem_v (m : Memory) : (s.setMem m).v = s.v := rfl
@[simp] theorem State.setMem_pc (m : Memory) : (s.setMem m).pc = s.pc := rfl
@[simp] theorem State.setMem_i (m : Memory) : (s.setMem m).i = s.i := rfl
@[simp] theorem State.setMem_sp (m : Memory) : (s.setMem m).sp = s.sp := rfl
@[simp] theorem State.setMem_stack (m : Memory) : (s.setMem m).stack = s.stack := rfl
@[simp] theorem State.setMem_mem (m : Memory) : (s.setMem m).mem = m := rfl
@[simp] theorem State.setMem_dt (m : Memory) : (s.setMem m).dt = s.dt := rfl
@[simp] theorem State.setMem_st (m : Memory) : (s.setMem m).st = s.st := rfl
@[simp] theorem State.setMem_fb (m : Memory) : (s.setMem m).fb = s.fb := rfl
@[simp] theorem State.setMem_keys (m : Memory) : (s.setMem m).keys = s.keys := rfl
@[simp] theorem State.setMem_lastKey (m : Memory) : (s.setMem m).lastKey = s.lastKey := rfl
@[simp] theorem State.setMem_halted (m : Memory) : (s.setMem m).halted = s.halted := rfl
@[simp] theorem State.setMem_faultCause (m : Memory) : (s.setMem m).faultCause = s.faultCause := rfl
@[simp] theorem State.setMem_faultInstr (m : Memory) : (s.setMem m).faultInstr = s.faultInstr := rfl
@[simp] theorem State.setMem_faultPc (m : Memory) : (s.setMem m).faultPc = s.faultPc := rfl
@[simp] theorem State.setMem_draws (m : Memory) : (s.setMem m).draws = s.draws := rfl
@[simp] theorem State.setMem_outputs (m : Memory) : (s.setMem m).outputs = s.outputs := rfl

/-! ## `setFb` -/

@[simp] theorem State.setFb_v (g : Grid) : (s.setFb g).v = s.v := rfl
@[simp] theorem State.setFb_pc (g : Grid) : (s.setFb g).pc = s.pc := rfl
@[simp] theorem State.setFb_i (g : Grid) : (s.setFb g).i = s.i := rfl
@[simp] theorem State.setFb_sp (g : Grid) : (s.setFb g).sp = s.sp := rfl
@[simp] theorem State.setFb_stack (g : Grid) : (s.setFb g).stack = s.stack := rfl
@[simp] theorem State.setFb_mem (g : Grid) : (s.setFb g).mem = s.mem := rfl
@[simp] theorem State.setFb_dt (g : Grid) : (s.setFb g).dt = s.dt := rfl
@[simp] theorem State.setFb_st (g : Grid) : (s.setFb g).st = s.st := rfl
@[simp] theorem State.setFb_fb (g : Grid) : (s.setFb g).fb = g := rfl
@[simp] theorem State.setFb_keys (g : Grid) : (s.setFb g).keys = s.keys := rfl
@[simp] theorem State.setFb_lastKey (g : Grid) : (s.setFb g).lastKey = s.lastKey := rfl
@[simp] theorem State.setFb_halted (g : Grid) : (s.setFb g).halted = s.halted := rfl
@[simp] theorem State.setFb_faultCause (g : Grid) : (s.setFb g).faultCause = s.faultCause := rfl
@[simp] theorem State.setFb_faultInstr (g : Grid) : (s.setFb g).faultInstr = s.faultInstr := rfl
@[simp] theorem State.setFb_faultPc (g : Grid) : (s.setFb g).faultPc = s.faultPc := rfl
@[simp] theorem State.setFb_draws (g : Grid) : (s.setFb g).draws = s.draws := rfl
@[simp] theorem State.setFb_outputs (g : Grid) : (s.setFb g).outputs = s.outputs := rfl

/-! ## `setPc` -/

@[simp] theorem State.setPc_v (w : Word) : (s.setPc w).v = s.v := rfl
@[simp] theorem State.setPc_pc (w : Word) : (s.setPc w).pc = w := rfl
@[simp] theorem State.setPc_i (w : Word) : (s.setPc w).i = s.i := rfl
@[simp] theorem State.setPc_sp (w : Word) : (s.setPc w).sp = s.sp := rfl
@[simp] theorem State.setPc_stack (w : Word) : (s.setPc w).stack = s.stack := rfl
@[simp] theorem State.setPc_mem (w : Word) : (s.setPc w).mem = s.mem := rfl
@[simp] theorem State.setPc_dt (w : Word) : (s.setPc w).dt = s.dt := rfl
@[simp] theorem State.setPc_st (w : Word) : (s.setPc w).st = s.st := rfl
@[simp] theorem State.setPc_fb (w : Word) : (s.setPc w).fb = s.fb := rfl
@[simp] theorem State.setPc_keys (w : Word) : (s.setPc w).keys = s.keys := rfl
@[simp] theorem State.setPc_lastKey (w : Word) : (s.setPc w).lastKey = s.lastKey := rfl
@[simp] theorem State.setPc_halted (w : Word) : (s.setPc w).halted = s.halted := rfl
@[simp] theorem State.setPc_faultCause (w : Word) : (s.setPc w).faultCause = s.faultCause := rfl
@[simp] theorem State.setPc_faultInstr (w : Word) : (s.setPc w).faultInstr = s.faultInstr := rfl
@[simp] theorem State.setPc_faultPc (w : Word) : (s.setPc w).faultPc = s.faultPc := rfl
@[simp] theorem State.setPc_draws (w : Word) : (s.setPc w).draws = s.draws := rfl
@[simp] theorem State.setPc_outputs (w : Word) : (s.setPc w).outputs = s.outputs := rfl

/-! ## `advance` -/

@[simp] theorem State.advance_v : s.advance.v = s.v := rfl
@[simp] theorem State.advance_pc : s.advance.pc = s.pc + 2 := rfl
@[simp] theorem State.advance_i : s.advance.i = s.i := rfl
@[simp] theorem State.advance_sp : s.advance.sp = s.sp := rfl
@[simp] theorem State.advance_stack : s.advance.stack = s.stack := rfl
@[simp] theorem State.advance_mem : s.advance.mem = s.mem := rfl
@[simp] theorem State.advance_dt : s.advance.dt = s.dt := rfl
@[simp] theorem State.advance_st : s.advance.st = s.st := rfl
@[simp] theorem State.advance_fb : s.advance.fb = s.fb := rfl
@[simp] theorem State.advance_keys : s.advance.keys = s.keys := rfl
@[simp] theorem State.advance_lastKey : s.advance.lastKey = s.lastKey := rfl
@[simp] theorem State.advance_halted : s.advance.halted = s.halted := rfl
@[simp] theorem State.advance_faultCause : s.advance.faultCause = s.faultCause := rfl
@[simp] theorem State.advance_faultInstr : s.advance.faultInstr = s.faultInstr := rfl
@[simp] theorem State.advance_faultPc : s.advance.faultPc = s.faultPc := rfl
@[simp] theorem State.advance_draws : s.advance.draws = s.draws := rfl
@[simp] theorem State.advance_outputs : s.advance.outputs = s.outputs := rfl

/-! ## `emit` -/

@[simp] theorem State.emit_v (o : Output) : (s.emit o).v = s.v := rfl
@[simp] theorem State.emit_pc (o : Output) : (s.emit o).pc = s.pc := rfl
@[simp] theorem State.emit_i (o : Output) : (s.emit o).i = s.i := rfl
@[simp] theorem State.emit_sp (o : Output) : (s.emit o).sp = s.sp := rfl
@[simp] theorem State.emit_stack (o : Output) : (s.emit o).stack = s.stack := rfl
@[simp] theorem State.emit_mem (o : Output) : (s.emit o).mem = s.mem := rfl
@[simp] theorem State.emit_dt (o : Output) : (s.emit o).dt = s.dt := rfl
@[simp] theorem State.emit_st (o : Output) : (s.emit o).st = s.st := rfl
@[simp] theorem State.emit_fb (o : Output) : (s.emit o).fb = s.fb := rfl
@[simp] theorem State.emit_keys (o : Output) : (s.emit o).keys = s.keys := rfl
@[simp] theorem State.emit_lastKey (o : Output) : (s.emit o).lastKey = s.lastKey := rfl
@[simp] theorem State.emit_halted (o : Output) : (s.emit o).halted = s.halted := rfl
@[simp] theorem State.emit_faultCause (o : Output) : (s.emit o).faultCause = s.faultCause := rfl
@[simp] theorem State.emit_faultInstr (o : Output) : (s.emit o).faultInstr = s.faultInstr := rfl
@[simp] theorem State.emit_faultPc (o : Output) : (s.emit o).faultPc = s.faultPc := rfl
@[simp] theorem State.emit_draws (o : Output) : (s.emit o).draws = s.draws := rfl
@[simp] theorem State.emit_outputs (o : Output) : (s.emit o).outputs = o :: s.outputs := rfl

/-! ## `setFlag` -/

@[simp] theorem State.setFlag_v (c : Bool) : (s.setFlag c).v = s.v.set regVF (flagByte c) := rfl
@[simp] theorem State.setFlag_pc (c : Bool) : (s.setFlag c).pc = s.pc := rfl
@[simp] theorem State.setFlag_i (c : Bool) : (s.setFlag c).i = s.i := rfl
@[simp] theorem State.setFlag_sp (c : Bool) : (s.setFlag c).sp = s.sp := rfl
@[simp] theorem State.setFlag_stack (c : Bool) : (s.setFlag c).stack = s.stack := rfl
@[simp] theorem State.setFlag_mem (c : Bool) : (s.setFlag c).mem = s.mem := rfl
@[simp] theorem State.setFlag_dt (c : Bool) : (s.setFlag c).dt = s.dt := rfl
@[simp] theorem State.setFlag_st (c : Bool) : (s.setFlag c).st = s.st := rfl
@[simp] theorem State.setFlag_fb (c : Bool) : (s.setFlag c).fb = s.fb := rfl
@[simp] theorem State.setFlag_keys (c : Bool) : (s.setFlag c).keys = s.keys := rfl
@[simp] theorem State.setFlag_lastKey (c : Bool) : (s.setFlag c).lastKey = s.lastKey := rfl
@[simp] theorem State.setFlag_halted (c : Bool) : (s.setFlag c).halted = s.halted := rfl
@[simp] theorem State.setFlag_faultCause (c : Bool) : (s.setFlag c).faultCause = s.faultCause := rfl
@[simp] theorem State.setFlag_faultInstr (c : Bool) : (s.setFlag c).faultInstr = s.faultInstr := rfl
@[simp] theorem State.setFlag_faultPc (c : Bool) : (s.setFlag c).faultPc = s.faultPc := rfl
@[simp] theorem State.setFlag_draws (c : Bool) : (s.setFlag c).draws = s.draws := rfl
@[simp] theorem State.setFlag_outputs (c : Bool) : (s.setFlag c).outputs = s.outputs := rfl

/-! ## `storeAtI` -/

@[simp] theorem State.storeAtI_v (bs : List Byte) : (s.storeAtI bs).v = s.v := rfl
@[simp] theorem State.storeAtI_pc (bs : List Byte) : (s.storeAtI bs).pc = s.pc := rfl
@[simp] theorem State.storeAtI_i (bs : List Byte) : (s.storeAtI bs).i = s.i := rfl
@[simp] theorem State.storeAtI_sp (bs : List Byte) : (s.storeAtI bs).sp = s.sp := rfl
@[simp] theorem State.storeAtI_stack (bs : List Byte) : (s.storeAtI bs).stack = s.stack := rfl
@[simp] theorem State.storeAtI_mem (bs : List Byte) : (s.storeAtI bs).mem = s.mem.writeBytes s.i.toNat bs := rfl
@[simp] theorem State.storeAtI_dt (bs : List Byte) : (s.storeAtI bs).dt = s.dt := rfl
@[simp] theorem State.storeAtI_st (bs : List Byte) : (s.storeAtI bs).st = s.st := rfl
@[simp] theorem State.storeAtI_fb (bs : List Byte) : (s.storeAtI bs).fb = s.fb := rfl
@[simp] theorem State.storeAtI_keys (bs : List Byte) : (s.storeAtI bs).keys = s.keys := rfl
@[simp] theorem State.storeAtI_lastKey (bs : List Byte) : (s.storeAtI bs).lastKey = s.lastKey := rfl
@[simp] theorem State.storeAtI_halted (bs : List Byte) : (s.storeAtI bs).halted = s.halted := rfl
@[simp] theorem State.storeAtI_faultCause (bs : List Byte) : (s.storeAtI bs).faultCause = s.faultCause := rfl
@[simp] theorem State.storeAtI_faultInstr (bs : List Byte) : (s.storeAtI bs).faultInstr = s.faultInstr := rfl
@[simp] theorem State.storeAtI_faultPc (bs : List Byte) : (s.storeAtI bs).faultPc = s.faultPc := rfl
@[simp] theorem State.storeAtI_draws (bs : List Byte) : (s.storeAtI bs).draws = s.draws := rfl
@[simp] theorem State.storeAtI_outputs (bs : List Byte) : (s.storeAtI bs).outputs = s.outputs := rfl

/-! ## `diagnose` -/

@[simp] theorem State.diagnose_v (w : Word) : (s.diagnose w).v = s.v := rfl
@[simp] theorem State.diagnose_pc (w : Word) : (s.diagnose w).pc = s.pc + 2 := rfl
@[simp] theorem State.diagnose_i (w : Word) : (s.diagnose w).i = s.i := rfl
@[simp] theorem State.diagnose_sp (w : Word) : (s.diagnose w).sp = s.sp := rfl
@[simp] theorem State.diagnose_stack (w : Word) : (s.diagnose w).stack = s.stack := rfl
@[simp] theorem State.diagnose_mem (w : Word) : (s.diagnose w).mem = s.mem := rfl
@[simp] theorem State.diagnose_dt (w : Word) : (s.diagnose w).dt = s.dt := rfl
@[simp] theorem State.diagnose_st (w : Word) : (s.diagnose w).st = s.st := rfl
@[simp] theorem State.diagnose_fb (w : Word) : (s.diagnose w).fb = s.fb := rfl
@[simp] theorem State.diagnose_keys (w : Word) : (s.diagnose w).keys = s.keys := rfl
@[simp] theorem State.diagnose_lastKey (w : Word) : (s.diagnose w).lastKey = s.lastKey := rfl
@[simp] theorem State.diagnose_halted (w : Word) : (s.diagnose w).halted = s.halted := rfl
@[simp] theorem State.diagnose_faultCause (w : Word) : (s.diagnose w).faultCause = s.faultCause := rfl
@[simp] theorem State.diagnose_faultInstr (w : Word) : (s.diagnose w).faultInstr = s.faultInstr := rfl
@[simp] theorem State.diagnose_faultPc (w : Word) : (s.diagnose w).faultPc = s.faultPc := rfl
@[simp] theorem State.diagnose_draws (w : Word) : (s.diagnose w).draws = s.draws := rfl
@[simp] theorem State.diagnose_outputs (w : Word) : (s.diagnose w).outputs = .diag w s.pc :: s.outputs := rfl

/-! ## `hardFault` -/

@[simp] theorem State.hardFault_v (c : FaultCause) (w : Word) : (s.hardFault c w).v = s.v := rfl
@[simp] theorem State.hardFault_pc (c : FaultCause) (w : Word) : (s.hardFault c w).pc = s.pc := rfl
@[simp] theorem State.hardFault_i (c : FaultCause) (w : Word) : (s.hardFault c w).i = s.i := rfl
@[simp] theorem State.hardFault_sp (c : FaultCause) (w : Word) : (s.hardFault c w).sp = s.sp := rfl
@[simp] theorem State.hardFault_stack (c : FaultCause) (w : Word) : (s.hardFault c w).stack = s.stack := rfl
@[simp] theorem State.hardFault_mem (c : FaultCause) (w : Word) : (s.hardFault c w).mem = s.mem := rfl
@[simp] theorem State.hardFault_dt (c : FaultCause) (w : Word) : (s.hardFault c w).dt = s.dt := rfl
@[simp] theorem State.hardFault_st (c : FaultCause) (w : Word) : (s.hardFault c w).st = s.st := rfl
@[simp] theorem State.hardFault_fb (c : FaultCause) (w : Word) : (s.hardFault c w).fb = s.fb := rfl
@[simp] theorem State.hardFault_keys (c : FaultCause) (w : Word) : (s.hardFault c w).keys = s.keys := rfl
@[simp] theorem State.hardFault_lastKey (c : FaultCause) (w : Word) : (s.hardFault c w).lastKey = s.lastKey := rfl
@[simp] theorem State.hardFault_halted (c : FaultCause) (w : Word) : (s.hardFault c w).halted = true := rfl
@[simp] theorem State.hardFault_faultCause (c : FaultCause) (w : Word) : (s.hardFault c w).faultCause = c := rfl
@[simp] theorem State.hardFault_faultInstr (c : FaultCause) (w : Word) : (s.hardFault c w).faultInstr = w := rfl
@[simp] theorem State.hardFault_faultPc (c : FaultCause) (w : Word) : (s.hardFault c w).faultPc = s.pc := rfl
@[simp] theorem State.hardFault_draws (c : FaultCause) (w : Word) : (s.hardFault c w).draws = s.draws := rfl
@[simp] theorem State.hardFault_outputs (c : FaultCause) (w : Word) : (s.hardFault c w).outputs = .fault c w s.pc :: s.outputs := rfl

/-! ## `skipIf` -/

@[simp] theorem State.skipIf_pc (c : Bool) : (s.skipIf c).pc = if c then s.pc + 4 else s.pc + 2 := by
  cases c <;> rfl
@[simp] theorem State.skipIf_v (c : Bool) : (s.skipIf c).v = s.v := by cases c <;> rfl
@[simp] theorem State.skipIf_i (c : Bool) : (s.skipIf c).i = s.i := by cases c <;> rfl
@[simp] theorem State.skipIf_sp (c : Bool) : (s.skipIf c).sp = s.sp := by cases c <;> rfl
@[simp] theorem State.skipIf_stack (c : Bool) : (s.skipIf c).stack = s.stack := by cases c <;> rfl
@[simp] theorem State.skipIf_mem (c : Bool) : (s.skipIf c).mem = s.mem := by cases c <;> rfl
@[simp] theorem State.skipIf_dt (c : Bool) : (s.skipIf c).dt = s.dt := by cases c <;> rfl
@[simp] theorem State.skipIf_st (c : Bool) : (s.skipIf c).st = s.st := by cases c <;> rfl
@[simp] theorem State.skipIf_fb (c : Bool) : (s.skipIf c).fb = s.fb := by cases c <;> rfl
@[simp] theorem State.skipIf_keys (c : Bool) : (s.skipIf c).keys = s.keys := by cases c <;> rfl
@[simp] theorem State.skipIf_lastKey (c : Bool) : (s.skipIf c).lastKey = s.lastKey := by cases c <;> rfl
@[simp] theorem State.skipIf_halted (c : Bool) : (s.skipIf c).halted = s.halted := by cases c <;> rfl
@[simp] theorem State.skipIf_faultCause (c : Bool) : (s.skipIf c).faultCause = s.faultCause := by cases c <;> rfl
@[simp] theorem State.skipIf_faultInstr (c : Bool) : (s.skipIf c).faultInstr = s.faultInstr := by cases c <;> rfl
@[simp] theorem State.skipIf_faultPc (c : Bool) : (s.skipIf c).faultPc = s.faultPc := by cases c <;> rfl
@[simp] theorem State.skipIf_draws (c : Bool) : (s.skipIf c).draws = s.draws := by cases c <;> rfl
@[simp] theorem State.skipIf_outputs (c : Bool) : (s.skipIf c).outputs = s.outputs := by cases c <;> rfl

/-! ## `draw8` -/

@[simp] theorem State.draw8_fst : s.draw8.1 = Config.randomByte s.draws := rfl
@[simp] theorem State.draw8_v : s.draw8.2.v = s.v := rfl
@[simp] theorem State.draw8_pc : s.draw8.2.pc = s.pc := rfl
@[simp] theorem State.draw8_i : s.draw8.2.i = s.i := rfl
@[simp] theorem State.draw8_sp : s.draw8.2.sp = s.sp := rfl
@[simp] theorem State.draw8_stack : s.draw8.2.stack = s.stack := rfl
@[simp] theorem State.draw8_mem : s.draw8.2.mem = s.mem := rfl
@[simp] theorem State.draw8_dt : s.draw8.2.dt = s.dt := rfl
@[simp] theorem State.draw8_st : s.draw8.2.st = s.st := rfl
@[simp] theorem State.draw8_fb : s.draw8.2.fb = s.fb := rfl
@[simp] theorem State.draw8_keys : s.draw8.2.keys = s.keys := rfl
@[simp] theorem State.draw8_lastKey : s.draw8.2.lastKey = s.lastKey := rfl
@[simp] theorem State.draw8_halted : s.draw8.2.halted = s.halted := rfl
@[simp] theorem State.draw8_faultCause : s.draw8.2.faultCause = s.faultCause := rfl
@[simp] theorem State.draw8_faultInstr : s.draw8.2.faultInstr = s.faultInstr := rfl
@[simp] theorem State.draw8_faultPc : s.draw8.2.faultPc = s.faultPc := rfl
@[simp] theorem State.draw8_draws : s.draw8.2.draws = s.draws + 1 := rfl
@[simp] theorem State.draw8_outputs : s.draw8.2.outputs = s.outputs := rfl

/-! ## Reads of registers and keys -/

theorem State.getV_eq_of_v_eq {s t : State} (h : t.v = s.v) (x : Reg) : t.getV x = s.getV x := by
  simp [State.getV, h]

theorem State.getV_setV (x y : Reg) (b : Byte) : (s.setV x b).getV y = if x = y then b else s.getV y := by
  simp [State.getV, State.setV, Vector.getElem_set, Fin.ext_iff]

@[simp] theorem State.getV_setV_same (x : Reg) (b : Byte) : (s.setV x b).getV x = b := by
  simp [State.getV_setV]

theorem State.getV_setV_ne {x y : Reg} (h : x ≠ y) (b : Byte) : (s.setV x b).getV y = s.getV y := by
  simp [State.getV_setV, h]

theorem State.getV_setFlag (c : Bool) (y : Reg) :
    (s.setFlag c).getV y = if regVF = y then flagByte c else s.getV y :=
  s.getV_setV regVF y (flagByte c)

theorem State.isPressed_eq_of_keys_eq {s t : State} (h : t.keys = s.keys) (k : Key) :
    t.isPressed k = s.isPressed k := by
  simp [State.isPressed, h]

theorem State.fetchWord_eq_of_mem_pc_eq {s t : State} (hm : t.mem = s.mem) (hp : t.pc = s.pc) :
    t.fetchWord = s.fetchWord := by
  simp [State.fetchWord, hm, hp]

@[simp] theorem State.getV_setI (w : Word) (x : Reg) : (s.setI w).getV x = s.getV x := rfl
@[simp] theorem State.getV_setDt (b : Byte) (x : Reg) : (s.setDt b).getV x = s.getV x := rfl
@[simp] theorem State.getV_setSt (b : Byte) (x : Reg) : (s.setSt b).getV x = s.getV x := rfl
@[simp] theorem State.getV_setMem (m : Memory) (x : Reg) : (s.setMem m).getV x = s.getV x := rfl
@[simp] theorem State.getV_setFb (g : Grid) (x : Reg) : (s.setFb g).getV x = s.getV x := rfl
@[simp] theorem State.getV_setPc (w : Word) (x : Reg) : (s.setPc w).getV x = s.getV x := rfl
@[simp] theorem State.getV_advance (x : Reg) : s.advance.getV x = s.getV x := rfl
@[simp] theorem State.getV_emit (o : Output) (x : Reg) : (s.emit o).getV x = s.getV x := rfl
@[simp] theorem State.getV_storeAtI (bs : List Byte) (x : Reg) : (s.storeAtI bs).getV x = s.getV x := rfl
@[simp] theorem State.getV_diagnose (w : Word) (x : Reg) : (s.diagnose w).getV x = s.getV x := rfl
@[simp] theorem State.getV_hardFault (c : FaultCause) (w : Word) (x : Reg) : (s.hardFault c w).getV x = s.getV x := rfl
@[simp] theorem State.getV_skipIf (c : Bool) (x : Reg) : (s.skipIf c).getV x = s.getV x := by cases c <;> rfl
@[simp] theorem State.getV_draw8 (x : Reg) : s.draw8.2.getV x = s.getV x := rfl

end Sys2Proof.Machine
end

