-- ==== Sys2Proof/Laws/Grid.lean ====
section
/-!
SUPPORT. The framebuffer and the sprite engine: a pixel after an inversion, the canonical form and that every
operation keeps it, what a whole sprite does to a pixel, and when it collides.
-/

namespace Sys2Proof.Machine

/-! ## Rising lists -/

theorem risingFrom_cons {hi lo p : Nat} {l : List Nat} :
    risingFrom hi lo (p :: l) = true ↔ (lo ≤ p ∧ p < hi) ∧ risingFrom hi (p + 1) l = true := by
  simp [risingFrom]

theorem risingFrom_mono {hi lo lo' : Nat} {l : List Nat} (h : lo' ≤ lo) (hl : risingFrom hi lo l = true) :
    risingFrom hi lo' l = true := by
  cases l with
  | nil => rfl
  | cons p l =>
    rw [risingFrom_cons] at hl ⊢
    exact ⟨⟨by omega, hl.1.2⟩, hl.2⟩

theorem not_mem_below {hi lo p : Nat} {l : List Nat} (hl : risingFrom hi lo l = true) (h : p < lo) : p ∉ l := by
  induction l generalizing lo with
  | nil => simp
  | cons q l ih =>
    rw [risingFrom_cons] at hl
    simp only [List.mem_cons, not_or]
    exact ⟨by omega, ih hl.2 (by omega)⟩

theorem risingFrom_toggle {hi lo p : Nat} {l : List Nat} (hl : risingFrom hi lo l = true) (h : lo ≤ p)
    (hp : p < hi) : risingFrom hi lo (toggle p l) = true := by
  induction l generalizing lo with
  | nil => simpa [toggle] using risingFrom_cons.mpr ⟨⟨h, hp⟩, rfl⟩
  | cons q l ih =>
    have hl' := risingFrom_cons.mp hl
    simp only [toggle]
    split
    · exact risingFrom_cons.mpr ⟨⟨h, hp⟩, risingFrom_cons.mpr ⟨⟨by omega, hl'.1.2⟩, hl'.2⟩⟩
    · split
      · exact risingFrom_mono (by omega) hl'.2
      · exact risingFrom_cons.mpr ⟨hl'.1, ih hl'.2 (by omega)⟩

/-- Toggling changes membership of the one number and no other. -/
theorem mem_toggle {hi lo p q : Nat} {l : List Nat} (hl : risingFrom hi lo l = true) :
    q ∈ toggle p l ↔ if q = p then p ∉ l else q ∈ l := by
  induction l generalizing lo with
  | nil => by_cases h : q = p <;> simp [toggle, h]
  | cons k l ih =>
    have hl' := risingFrom_cons.mp hl
    simp only [toggle]
    split
    · next hlt =>
      have hpl : p ∉ l := not_mem_below hl'.2 (by omega)
      have hpk : p ≠ k := by omega
      by_cases h : q = p <;> simp [h, hpl, hpk]
    · split
      · next heq =>
        subst heq
        have hpl : p ∉ l := not_mem_below hl'.2 (by omega)
        by_cases h : q = p <;> simp [h, hpl]
      · next hne =>
        rw [List.mem_cons, ih hl'.2]
        by_cases h : q = p
        · subst h; simp [hne]
        · simp [h]

theorem eq_of_rising {hi lo : Nat} {l m : List Nat} (hl : risingFrom hi lo l = true)
    (hm : risingFrom hi lo m = true) (h : ∀ p, p ∈ l ↔ p ∈ m) : l = m := by
  induction l generalizing lo m with
  | nil =>
    cases m with
    | nil => rfl
    | cons q m => exact absurd ((h q).mpr (by simp)) (by simp)
  | cons p l ih =>
    have hl' := risingFrom_cons.mp hl
    cases m with
    | nil => exact absurd ((h p).mp (by simp)) (by simp)
    | cons q m =>
      have hm' := risingFrom_cons.mp hm
      have hpq : p = q := by
        have h1 := (h p).mp (by simp)
        have h2 := (h q).mpr (by simp)
        rw [List.mem_cons] at h1 h2
        rcases h1 with h1 | h1
        · exact h1
        rcases h2 with h2 | h2
        · exact h2.symm
        rcases Nat.lt_trichotomy p q with hlt | heq | hgt
        · exact absurd h1 (not_mem_below hm'.2 (by omega))
        · exact heq
        · exact absurd h2 (not_mem_below hl'.2 (by omega))
      subst hpq
      rw [ih hl'.2 hm'.2 fun r => ?_]
      have := h r
      rw [List.mem_cons, List.mem_cons] at this
      by_cases hr : r = p
      · subst hr
        exact ⟨fun hmem => absurd hmem (not_mem_below hl'.2 (by omega)),
          fun hmem => absurd hmem (not_mem_below hm'.2 (by omega))⟩
      · simpa [hr] using this

/-! ## Pixels -/

theorem Grid.wf_iff {g : Grid} :
    g.wf = true ↔ (0 < g.rows ∧ 0 < g.cols) ∧ risingFrom (g.rows * g.cols) 0 g.lit = true := by
  simp [Grid.wf]

theorem Grid.place_lt {g : Grid} (hr : 0 < g.rows) (hc : 0 < g.cols) (r c : Nat) :
    g.place r c < g.rows * g.cols := by
  have h1 : r % g.rows + 1 ≤ g.rows := Nat.mod_lt r hr
  have h2 : c % g.cols < g.cols := Nat.mod_lt c hc
  have h3 := Nat.mul_le_mul_right g.cols h1
  rw [Nat.add_mul] at h3
  unfold Grid.place
  omega

/-- Two positions are one pixel iff their rows and their columns agree modulo the sizes. -/
theorem Grid.place_inj {g : Grid} (hc : 0 < g.cols) {r c r' c' : Nat} :
    g.place r c = g.place r' c' ↔ r % g.rows = r' % g.rows ∧ c % g.cols = c' % g.cols := by
  have h1 : c % g.cols < g.cols := Nat.mod_lt c hc
  have h2 : c' % g.cols < g.cols := Nat.mod_lt c' hc
  constructor
  · intro h
    unfold Grid.place at h
    have hd := congrArg (· / g.cols) h
    have hm := congrArg (· % g.cols) h
    simp only [Nat.mul_add_mod_of_lt, h1, h2] at hm
    simp only [Nat.add_div_of_dvd_right (Nat.dvd_mul_left g.cols _), Nat.mul_div_cancel _ hc,
      Nat.div_eq_of_lt h1, Nat.div_eq_of_lt h2, Nat.add_zero] at hd
    exact ⟨hd, hm⟩
  · rintro ⟨h3, h4⟩
    simp [Grid.place, h3, h4]

@[simp] theorem Grid.flip_rows (g : Grid) (r c : Nat) : (g.flip r c).rows = g.rows := rfl
@[simp] theorem Grid.flip_cols (g : Grid) (r c : Nat) : (g.flip r c).cols = g.cols := rfl
@[simp] theorem Grid.clear_rows (g : Grid) : g.clear.rows = g.rows := rfl
@[simp] theorem Grid.clear_cols (g : Grid) : g.clear.cols = g.cols := rfl
@[simp] theorem Grid.pixel_clear (g : Grid) (r c : Nat) : g.clear.pixel r c = false := rfl
@[simp] theorem Grid.pixel_blank (rows cols r c : Nat) : (Grid.blank rows cols).pixel r c = false := rfl

theorem Grid.wf_blank {rows cols : Nat} (hr : 0 < rows) (hc : 0 < cols) : (Grid.blank rows cols).wf = true :=
  Grid.wf_iff.mpr ⟨⟨hr, hc⟩, rfl⟩

theorem Grid.wf_clear {g : Grid} (hg : g.wf = true) : g.clear.wf = true :=
  Grid.wf_blank (Grid.wf_iff.mp hg).1.1 (Grid.wf_iff.mp hg).1.2

/-- An inversion keeps the canonical form. -/
theorem Grid.wf_flip {g : Grid} (hg : g.wf = true) (r c : Nat) : (g.flip r c).wf = true := by
  have h := Grid.wf_iff.mp hg
  exact Grid.wf_iff.mpr ⟨h.1, risingFrom_toggle h.2 (Nat.zero_le _) (Grid.place_lt h.1.1 h.1.2 r c)⟩

/-- An inversion inverts the one pixel and no other. -/
theorem Grid.pixel_flip {g : Grid} (hg : g.wf = true) (r c r' c' : Nat) :
    (g.flip r c).pixel r' c' = (g.pixel r' c' ^^ decide (g.place r' c' = g.place r c)) := by
  have hm := mem_toggle (p := g.place r c) (q := g.place r' c') (Grid.wf_iff.mp hg).2
  have hflip : (g.flip r c).pixel r' c' = (toggle (g.place r c) g.lit).contains (g.place r' c') := rfl
  rw [hflip, Grid.pixel]
  by_cases he : g.place r' c' = g.place r c
  · by_cases hmem : g.place r c ∈ g.lit <;> simp [he, hmem] at hm ⊢ <;> exact hm
  · simp only [he, if_false] at hm
    by_cases hmem : g.place r' c' ∈ g.lit <;> simp [he, hmem, hm]

/-- Framebuffers in the canonical form with the same sizes and the same pixels are the same data. -/
theorem Grid.ext_pixels {g h : Grid} (hg : g.wf = true) (hh : h.wf = true) (hr : g.rows = h.rows)
    (hc : g.cols = h.cols) (hp : ∀ r c, g.pixel r c = h.pixel r c) : g = h := by
  obtain ⟨rows, cols, lit⟩ := g
  obtain ⟨rows', cols', lit'⟩ := h
  simp only at hr hc
  subst hr hc
  have h1 := Grid.wf_iff.mp hg
  have h2 := Grid.wf_iff.mp hh
  simp only at h1 h2
  have : lit = lit' := by
    refine eq_of_rising h1.2 h2.2 fun p => ?_
    have in_range : ∀ {l : List Nat}, risingFrom (rows * cols) 0 l = true → p ∈ l → p < rows * cols := by
      intro l hl hpl
      have aux : ∀ (l : List Nat) (lo : Nat), risingFrom (rows * cols) lo l = true → p ∈ l → p < rows * cols := by
        intro l
        induction l with
        | nil => simp
        | cons q l ih =>
          intro lo hl hpl
          have hl' := risingFrom_cons.mp hl
          rcases List.mem_cons.mp hpl with rfl | hpl
          · exact hl'.1.2
          · exact ih _ hl'.2 hpl
      exact aux l 0 hl hpl
    by_cases hlt : p < rows * cols
    · have hcol : p % cols < cols := Nat.mod_lt p h1.1.2
      have hrow : p / cols < rows := Nat.div_lt_of_lt_mul (by rwa [Nat.mul_comm])
      have hpl : p / cols % rows * cols + p % cols % cols = p := by
        rw [Nat.mod_eq_of_lt hrow, Nat.mod_eq_of_lt hcol, Nat.mul_comm, Nat.div_add_mod]
      have := hp (p / cols) (p % cols)
      simp only [Grid.pixel, Grid.place, hpl] at this
      rw [← List.contains_iff_mem, this, List.contains_iff_mem]
    · exact ⟨fun hm => absurd (in_range h1.2 hm) hlt, fun hm => absurd (in_range h2.2 hm) hlt⟩
  rw [this]

/-! ## The sprite engine -/

theorem Grid.invert_rows (acc : Grid × Bool) (p : Nat × Nat) : (Grid.invert acc p).1.rows = acc.1.rows := rfl
theorem Grid.invert_cols (acc : Grid × Bool) (p : Nat × Nat) : (Grid.invert acc p).1.cols = acc.1.cols := rfl

theorem Grid.foldl_invert_sizes (ps : List (Nat × Nat)) (acc : Grid × Bool) :
    (ps.foldl Grid.invert acc).1.rows = acc.1.rows ∧ (ps.foldl Grid.invert acc).1.cols = acc.1.cols := by
  induction ps generalizing acc with
  | nil => exact ⟨rfl, rfl⟩
  | cons p ps ih => exact ih (Grid.invert acc p)

theorem Grid.foldl_invert_wf (ps : List (Nat × Nat)) {acc : Grid × Bool} (h : acc.1.wf = true) :
    (ps.foldl Grid.invert acc).1.wf = true := by
  induction ps generalizing acc with
  | nil => exact h
  | cons p ps ih => exact ih (acc := Grid.invert acc p) (Grid.wf_flip h p.1 p.2)

/-- Drawing keeps the sizes. -/
@[simp] theorem Grid.drawSprite_rows (g : Grid) (x0 y0 : Nat) (bs : List Byte) :
    (g.drawSprite x0 y0 bs).1.rows = g.rows := (Grid.foldl_invert_sizes _ (g, false)).1

@[simp] theorem Grid.drawSprite_cols (g : Grid) (x0 y0 : Nat) (bs : List Byte) :
    (g.drawSprite x0 y0 bs).1.cols = g.cols := (Grid.foldl_invert_sizes _ (g, false)).2

/-- Drawing keeps the canonical form. -/
theorem Grid.wf_drawSprite {g : Grid} (hg : g.wf = true) (x0 y0 : Nat) (bs : List Byte) :
    (g.drawSprite x0 y0 bs).1.wf = true :=
  Grid.foldl_invert_wf _ (acc := (g, false)) hg

/-- A run of inversions inverts a pixel once for each time it is visited. -/
theorem Grid.pixel_foldl_invert (ps : List (Nat × Nat)) {acc : Grid × Bool} (h : acc.1.wf = true) (r c : Nat) :
    (ps.foldl Grid.invert acc).1.pixel r c =
      (acc.1.pixel r c ^^
        decide ((ps.countP fun p => decide (acc.1.place r c = acc.1.place p.1 p.2)) % 2 = 1)) := by
  induction ps generalizing acc with
  | nil => simp
  | cons p ps ih =>
    rw [List.foldl_cons, ih (acc := Grid.invert acc p) (Grid.wf_flip h p.1 p.2)]
    have hplace : ∀ a b, (Grid.invert acc p).1.place a b = acc.1.place a b := fun a b => rfl
    simp only [hplace]
    have hpix : (Grid.invert acc p).1.pixel r c =
        (acc.1.pixel r c ^^ decide (acc.1.place r c = acc.1.place p.1 p.2)) := Grid.pixel_flip h p.1 p.2 r c
    rw [hpix, List.countP_cons]
    by_cases he : acc.1.place r c = acc.1.place p.1 p.2
    · simp only [he, decide_true, if_true]
      generalize List.countP _ ps = n
      rcases Nat.mod_two_eq_zero_or_one n with h0 | h0
      · simp [Nat.add_mod, h0]
      · simp [Nat.add_mod, h0]
    · simp [he]

/-- A run of inversions of different pixels collides iff one of them was on. -/
theorem Grid.collision_foldl_invert (ps : List (Nat × Nat)) {acc : Grid × Bool} (h : acc.1.wf = true)
    (hd : (ps.map fun p => acc.1.place p.1 p.2).Nodup) :
    (ps.foldl Grid.invert acc).2 = (acc.2 || ps.any fun p => acc.1.pixel p.1 p.2) := by
  induction ps generalizing acc with
  | nil => simp
  | cons p ps ih =>
    rw [List.map_cons, List.nodup_cons] at hd
    rw [List.foldl_cons, ih (acc := Grid.invert acc p) (Grid.wf_flip h p.1 p.2) hd.2, List.any_cons]
    have hsame : ∀ q ∈ ps, (Grid.invert acc p).1.pixel q.1 q.2 = acc.1.pixel q.1 q.2 := by
      intro q hq
      have hne : acc.1.place q.1 q.2 ≠ acc.1.place p.1 p.2 := by
        intro he
        exact hd.1 (List.mem_map.mpr ⟨q, hq, he⟩)
      exact (Grid.pixel_flip h p.1 p.2 q.1 q.2).trans (by simp [hne])
    have hany : (ps.any fun q => (Grid.invert acc p).1.pixel q.1 q.2) = ps.any fun q => acc.1.pixel q.1 q.2 := by
      rw [Bool.eq_iff_iff, List.any_eq_true, List.any_eq_true]
      exact ⟨fun ⟨q, hq, hp⟩ => ⟨q, hq, hsame q hq ▸ hp⟩, fun ⟨q, hq, hp⟩ => ⟨q, hq, (hsame q hq).symm ▸ hp⟩⟩
    rw [hany]
    simp [Grid.invert, Bool.or_assoc]

/-- The pixels of a sprite: those under its 1 bits, wrapped at both edges (spec 43_display.md R160). -/
theorem Grid.mem_spritePixels {g : Grid} {x0 y0 r c : Nat} {bs : List Byte} :
    (r, c) ∈ g.spritePixels x0 y0 bs ↔
      ∃ k, ∃ hk : k < bs.length, ∃ j < 8, (bs[k]).getLsbD (7 - j) = true ∧
        (y0 + k) % g.rows = r ∧ (x0 + j) % g.cols = c := by
  induction bs generalizing y0 with
  | nil => simp [Grid.spritePixels]
  | cons b bs ih =>
    rw [Grid.spritePixels, List.mem_append, ih]
    simp only [Grid.rowPixels, List.mem_map, List.mem_filter, List.mem_range, Prod.mk.injEq]
    constructor
    · rintro (⟨j, ⟨hj, hb⟩, h1, h2⟩ | ⟨k, hk, j, hj, hb, h1, h2⟩)
      · exact ⟨0, by simp, j, hj, by simpa using hb, by simpa using h1, h2⟩
      · exact ⟨k + 1, by simpa using hk, j, hj, by simpa using hb, by rw [← h1, show y0 + (k + 1) = y0 + 1 + k by omega], h2⟩
    · rintro ⟨k, hk, j, hj, hb, h1, h2⟩
      cases k with
      | zero => exact .inl ⟨j, ⟨hj, by simpa using hb⟩, by simpa using h1, h2⟩
      | succ k =>
        exact .inr ⟨k, by simpa using hk, j, hj, by simpa using hb,
          by rw [← h1, show y0 + (k + 1) = y0 + 1 + k by omega], h2⟩

theorem add_mod_inj {a j j' n : Nat} (hj : j < n) (hj' : j' < n) (h : (a + j) % n = (a + j') % n) : j = j' := by
  have h' : a + j ≡ a + j' [MOD n] := h
  have := Nat.ModEq.add_left_cancel' a h'
  rwa [Nat.ModEq, Nat.mod_eq_of_lt hj, Nat.mod_eq_of_lt hj'] at this

/-- With room for the sprite no pixel is visited twice (spec 43_display.md R160). -/
theorem Grid.nodup_spritePixels {g : Grid} {x0 y0 : Nat} {bs : List Byte} (hc : 8 ≤ g.cols)
    (hr : bs.length ≤ g.rows) : (g.spritePixels x0 y0 bs).Nodup := by
  induction bs generalizing y0 with
  | nil => simp [Grid.spritePixels]
  | cons b bs ih =>
    have hlen : bs.length + 1 ≤ g.rows := by simpa using hr
    rw [Grid.spritePixels, List.nodup_append]
    refine ⟨?_, ih (by omega), ?_⟩
    · refine List.Nodup.map_on ?_ (List.nodup_range.filter _)
      intro j hj j' hj' he
      simp only [List.mem_filter, List.mem_range] at hj hj'
      exact add_mod_inj (by omega) (by omega) (Prod.mk.injEq .. ▸ he).2
    · rintro ⟨r, c⟩ hp ⟨r', c'⟩ hq he
      cases he
      obtain ⟨k, hk, j, hj, hb, h1, h2⟩ := Grid.mem_spritePixels.mp hq
      simp only [Grid.rowPixels, List.mem_map, Prod.mk.injEq] at hp
      obtain ⟨_, _, h3, _⟩ := hp
      have : (y0 + 0) % g.rows = (y0 + (k + 1)) % g.rows := by
        rw [Nat.add_zero, h3, ← h1, show y0 + (k + 1) = y0 + 1 + k by omega]
      have := add_mod_inj (by omega) (by omega) this
      omega

theorem Grid.spritePixels_reduced {g : Grid} (hr : 0 < g.rows) (hc : 0 < g.cols) {x0 y0 : Nat} {bs : List Byte}
    {p : Nat × Nat} (hp : p ∈ g.spritePixels x0 y0 bs) : p.1 < g.rows ∧ p.2 < g.cols := by
  obtain ⟨k, _, j, _, _, h1, h2⟩ := Grid.mem_spritePixels.mp (show (p.1, p.2) ∈ _ from hp)
  exact ⟨h1 ▸ Nat.mod_lt _ hr, h2 ▸ Nat.mod_lt _ hc⟩

theorem Grid.nodup_spritePlaces {g : Grid} (hg : g.wf = true) {x0 y0 : Nat} {bs : List Byte} (hc : 8 ≤ g.cols)
    (hr : bs.length ≤ g.rows) : ((g.spritePixels x0 y0 bs).map fun p => g.place p.1 p.2).Nodup := by
  have hw := (Grid.wf_iff.mp hg).1
  refine List.Nodup.map_on ?_ (Grid.nodup_spritePixels hc hr)
  intro p hp q hq he
  have h1 := Grid.spritePixels_reduced hw.1 hw.2 hp
  have h2 := Grid.spritePixels_reduced hw.1 hw.2 hq
  have := (Grid.place_inj hw.2).mp he
  rw [Nat.mod_eq_of_lt h1.1, Nat.mod_eq_of_lt h1.2, Nat.mod_eq_of_lt h2.1, Nat.mod_eq_of_lt h2.2] at this
  exact Prod.ext this.1 this.2

/-- With room for the sprite, drawing inverts exactly the pixels under its 1 bits. -/
theorem Grid.pixel_drawSprite {g : Grid} (hg : g.wf = true) {x0 y0 : Nat} {bs : List Byte} (hc : 8 ≤ g.cols)
    (hr : bs.length ≤ g.rows) {r c : Nat} (hrow : r < g.rows) (hcol : c < g.cols) :
    (g.drawSprite x0 y0 bs).1.pixel r c =
      (g.pixel r c ^^ decide ((r, c) ∈ g.spritePixels x0 y0 bs)) := by
  have hw := (Grid.wf_iff.mp hg).1
  rw [Grid.drawSprite, Grid.pixel_foldl_invert _ (acc := (g, false)) hg]
  congr 1
  have hcount : ((g.spritePixels x0 y0 bs).countP fun p => decide (g.place r c = g.place p.1 p.2)) =
      (g.spritePixels x0 y0 bs).count (r, c) := by
    rw [List.count]
    refine List.countP_congr fun p hp => ?_
    have h1 := Grid.spritePixels_reduced hw.1 hw.2 hp
    simp only [decide_eq_true_eq, Grid.place_inj hw.2, beq_iff_eq, Nat.mod_eq_of_lt hrow, Nat.mod_eq_of_lt hcol,
      Nat.mod_eq_of_lt h1.1, Nat.mod_eq_of_lt h1.2]
    exact ⟨fun h => Prod.ext h.1.symm h.2.symm, fun h => ⟨by rw [h], by rw [h]⟩⟩
  simp only [hcount]
  by_cases hmem : (r, c) ∈ g.spritePixels x0 y0 bs
  · simp [hmem, List.count_eq_one_of_mem (Grid.nodup_spritePixels hc hr) hmem]
  · simp [hmem, List.count_eq_zero_of_not_mem hmem]

/-- With room for the sprite, drawing collides iff a pixel under one of its 1 bits was on. -/
theorem Grid.collision_drawSprite {g : Grid} (hg : g.wf = true) {x0 y0 : Nat} {bs : List Byte} (hc : 8 ≤ g.cols)
    (hr : bs.length ≤ g.rows) :
    (g.drawSprite x0 y0 bs).2 = (g.spritePixels x0 y0 bs).any fun p => g.pixel p.1 p.2 := by
  rw [Grid.drawSprite, Grid.collision_foldl_invert _ (acc := (g, false)) hg (Grid.nodup_spritePlaces hg hc hr)]
  simp

/-! ## A draw on a framebuffer of any size -/

/-- Eight more numbers stand before the ones there were, which move up by eight. -/
theorem map_filter_range_add_eight (m : Nat) (f : Nat → Bool) (h : Nat → Nat × Nat) :
    ((List.range (8 * m + 8)).filter f).map h =
      ((List.range 8).filter f).map h ++ ((List.range (8 * m)).filter fun b => f (b + 8)).map fun b => h (b + 8) := by
  rw [Nat.add_comm, List.range_add, List.filter_append, List.map_append, List.filter_map, List.map_map]
  simp only [Function.comp_def, Nat.add_comm 8]

/-- The engine's order over the bits of a sprite, counted through (spec 43_display.md R160). -/
theorem Grid.spritePixels_eq_range (g : Grid) (x0 y0 : Nat) (bs : List Byte) :
    g.spritePixels x0 y0 bs =
      ((List.range (8 * bs.length)).filter fun b => (bs.getD (b / 8) 0).getLsbD (7 - b % 8)).map fun b =>
        ((y0 + b / 8) % g.rows, (x0 + b % 8) % g.cols) := by
  induction bs generalizing y0 with
  | nil => rfl
  | cons b bs ih =>
    rw [Grid.spritePixels, ih, List.length_cons, Nat.mul_add_one, map_filter_range_add_eight]
    congr 1
    · have hlow : ∀ j ∈ List.range 8, j / 8 = 0 ∧ j % 8 = j := fun j hj => by
        have := List.mem_range.mp hj
        omega
      rw [Grid.rowPixels, List.filter_congr (q := fun j => ((b :: bs).getD (j / 8) 0).getLsbD (7 - j % 8))
        fun j hj => by rw [(hlow j hj).1, (hlow j hj).2]; rfl]
      refine List.map_congr_left fun j hj => ?_
      rw [(hlow j (List.mem_filter.mp hj).1).1, (hlow j (List.mem_filter.mp hj).1).2]
      rfl
    · have hdiv : ∀ j, (j + 8) / 8 = j / 8 + 1 := fun j => by omega
      have hmod : ∀ j, (j + 8) % 8 = j % 8 := fun j => by omega
      simp only [hdiv, hmod, List.getD_cons_succ, Nat.add_assoc, Nat.add_comm 1]

/-- A run of inversions collides iff it began with a collision or one of them found its pixel on. -/
theorem Grid.collision_foldl_iff (ps : List (Nat × Nat)) (acc : Grid × Bool) :
    (ps.foldl Grid.invert acc).2 = true ↔ acc.2 = true ∨
      ∃ k, ∃ h : k < ps.length, ((ps.take k).foldl Grid.invert acc).1.pixel ps[k].1 ps[k].2 = true := by
  induction ps generalizing acc with
  | nil => simp
  | cons p ps ih =>
    rw [List.foldl_cons, ih]
    constructor
    · rintro (h | ⟨k, hk, h⟩)
      · simp only [Grid.invert, Bool.or_eq_true] at h
        exact h.imp_right fun h => ⟨0, by simp, h⟩
      · exact .inr ⟨k + 1, by simpa using hk, by simpa using h⟩
    · rintro (h | ⟨k, hk, h⟩)
      · simp [Grid.invert, h]
      · cases k with
        | zero => simp at h; simp [Grid.invert, h]
        | succ k => exact .inr ⟨k, by simpa using hk, by simpa using h⟩

end Sys2Proof.Machine
end

