-- ==== Sys2Proof/Laws/Memory.lean ====
section
/-!
SUPPORT. Memory: a read after a write, the canonical form and that every operation keeps it, and that memories in
the form with equal bytes are equal data.
-/

namespace Sys2Proof.Machine

theorem Memory.read_cellsFor_append_same (m : Memory) (a : Nat) (b : Byte)
    (h : m.read a = unlistedByte a) : Memory.read (cellsFor a b ++ m) a = b := by
  unfold cellsFor
  split
  · next hb => simp [h, hb]
  · simp [Memory.read]

theorem Memory.read_cellsFor_append_ne (m : Memory) {a c : Nat} (b : Byte) (h : a ≠ c) :
    Memory.read (cellsFor a b ++ m) c = m.read c := by
  unfold cellsFor
  split <;> simp [Memory.read, h]

theorem Memory.wfFrom_cons {lo k : Nat} {b : Byte} {m : Memory} :
    Memory.wfFrom lo ((k, b) :: m) = true ↔
      (lo ≤ k ∧ k < 4096 ∧ b ≠ unlistedByte k) ∧ Memory.wfFrom (k + 1) m = true := by
  simp [Memory.wfFrom]

theorem Memory.wfFrom_mono {lo lo' : Nat} {m : Memory} (h : lo' ≤ lo) (hm : Memory.wfFrom lo m = true) :
    Memory.wfFrom lo' m = true := by
  cases m with
  | nil => rfl
  | cons kb m =>
    obtain ⟨k, b⟩ := kb
    rw [Memory.wfFrom_cons] at hm ⊢
    exact ⟨⟨by omega, hm.1.2⟩, hm.2⟩

/-- Below the first cell everything reads as unlisted. -/
theorem Memory.read_below {lo a : Nat} {m : Memory} (hm : Memory.wfFrom lo m = true) (h : a < lo) :
    m.read a = unlistedByte a := by
  induction m generalizing lo with
  | nil => rfl
  | cons kb m ih =>
    obtain ⟨k, b⟩ := kb
    rw [Memory.wfFrom_cons] at hm
    have hk : k ≠ a := by omega
    simp [Memory.read, hk, ih hm.2 (by omega)]

theorem Memory.wfFrom_cellsFor_append {lo a : Nat} {b : Byte} {m : Memory} (h : lo ≤ a) (ha : a < 4096)
    (hm : Memory.wfFrom (a + 1) m = true) : Memory.wfFrom lo (cellsFor a b ++ m) = true := by
  unfold cellsFor
  split
  · exact Memory.wfFrom_mono (by omega) hm
  · next hb => exact Memory.wfFrom_cons.mpr ⟨⟨h, ha, hb⟩, hm⟩

/-! ## One byte -/

theorem Memory.read_write_same_from {lo : Nat} {m : Memory} (hm : Memory.wfFrom lo m = true) (a : Nat) (b : Byte) :
    (m.write a b).read a = b := by
  induction m generalizing lo with
  | nil => simpa [Memory.write] using Memory.read_cellsFor_append_same [] a b rfl
  | cons kc m ih =>
    obtain ⟨k, c⟩ := kc
    have hm' := Memory.wfFrom_cons.mp hm
    simp only [Memory.write]
    split
    · next hlt =>
      refine Memory.read_cellsFor_append_same _ a b ?_
      have hk : k ≠ a := by omega
      simp [Memory.read, hk, Memory.read_below hm'.2 (show a < k + 1 by omega)]
    · split
      · next heq => exact Memory.read_cellsFor_append_same _ a b (Memory.read_below hm'.2 (by omega))
      · next hne =>
        have hk : k ≠ a := fun h => hne h.symm
        simp [Memory.read, hk, ih hm'.2]

/-- A read after a write to the same place gives the value written. -/
theorem Memory.read_write_same {m : Memory} (hm : m.wf = true) (a : Nat) (b : Byte) :
    (m.write a b).read a = b :=
  Memory.read_write_same_from hm a b

/-- A write leaves every other place alone. -/
theorem Memory.read_write_ne (m : Memory) {a c : Nat} (b : Byte) (h : a ≠ c) :
    (m.write a b).read c = m.read c := by
  induction m with
  | nil => simpa [Memory.write] using Memory.read_cellsFor_append_ne [] b h
  | cons kd m ih =>
    obtain ⟨k, d⟩ := kd
    simp only [Memory.write]
    split
    · exact Memory.read_cellsFor_append_ne _ b h
    · split
      · next heq =>
        subst heq
        rw [Memory.read_cellsFor_append_ne _ b h]
        simp [Memory.read, h]
      · simp [Memory.read, ih]

theorem Memory.wfFrom_write {lo : Nat} {m : Memory} {a : Nat} (b : Byte) (hm : Memory.wfFrom lo m = true)
    (hlo : lo ≤ a) (ha : a < 4096) : Memory.wfFrom lo (m.write a b) = true := by
  induction m generalizing lo with
  | nil => simpa [Memory.write] using Memory.wfFrom_cellsFor_append (m := []) (b := b) hlo ha rfl
  | cons kc m ih =>
    obtain ⟨k, c⟩ := kc
    have hm' := Memory.wfFrom_cons.mp hm
    simp only [Memory.write]
    split
    · next hlt =>
      exact Memory.wfFrom_cellsFor_append hlo ha
        (Memory.wfFrom_cons.mpr ⟨⟨by omega, hm'.1.2⟩, hm'.2⟩)
    · split
      · next heq => exact Memory.wfFrom_cellsFor_append hlo ha (heq ▸ hm'.2)
      · exact Memory.wfFrom_cons.mpr ⟨hm'.1, ih hm'.2 (by omega)⟩

/-- A write keeps the canonical form. -/
theorem Memory.wf_write {m : Memory} {a : Nat} (b : Byte) (hm : m.wf = true) (ha : a < 4096) :
    (m.write a b).wf = true :=
  Memory.wfFrom_write b hm (Nat.zero_le a) ha

/-! ## Runs of bytes -/

theorem memAddr_lt (a : Nat) : memAddr a < 4096 := Nat.mod_lt _ (by decide)

/-- Every run of stores keeps the canonical form. -/
theorem Memory.wf_writeBytes {m : Memory} (hm : m.wf = true) (a : Nat) (bs : List Byte) :
    (m.writeBytes a bs).wf = true := by
  induction bs generalizing m a with
  | nil => exact hm
  | cons b bs ih => exact ih (Memory.wf_write b hm (memAddr_lt a)) (a + 1)

/-- A run of stores leaves every byte outside it alone. -/
theorem Memory.read_writeBytes_other (m : Memory) (a : Nat) (bs : List Byte) {c : Nat}
    (h : ∀ k < bs.length, memAddr (a + k) ≠ c) : (m.writeBytes a bs).read c = m.read c := by
  induction bs generalizing m a with
  | nil => rfl
  | cons b bs ih =>
    rw [Memory.writeBytes, ih]
    · exact Memory.read_write_ne m b (by simpa using h 0 (by simp))
    · intro k hk
      have := h (k + 1) (by simpa using hk)
      rwa [show a + 1 + k = a + (k + 1) by omega]

/-- Each byte of a run of at most 4096 stores reads as the byte stored there. -/
theorem Memory.read_writeBytes_at {m : Memory} (hm : m.wf = true) (a : Nat) (bs : List Byte)
    (hlen : bs.length ≤ 4096) (k : Nat) (hk : k < bs.length) :
    (m.writeBytes a bs).read (memAddr (a + k)) = bs[k] := by
  induction bs generalizing m a k with
  | nil => simp at hk
  | cons b bs ih =>
    have hlen' : bs.length + 1 ≤ 4096 := by simpa using hlen
    rw [Memory.writeBytes]
    cases k with
    | zero =>
      rw [Memory.read_writeBytes_other]
      · simpa using Memory.read_write_same hm (memAddr a) b
      · intro j hj
        simp only [memAddr]
        omega
    | succ k =>
      have hk' : k < bs.length := by simpa using hk
      rw [show a + (k + 1) = a + 1 + k by omega]
      simpa using ih (Memory.wf_write b hm (memAddr_lt a)) (a + 1) (by omega) k hk'

@[simp] theorem Memory.length_readBytes (m : Memory) (a n : Nat) : (m.readBytes a n).length = n := by
  simp [Memory.readBytes]

theorem Memory.getElem_readBytes (m : Memory) (a n k : Nat) (h : k < (m.readBytes a n).length) :
    (m.readBytes a n)[k] = m.read (memAddr (a + k)) := by
  simp [Memory.readBytes]

/-! ## Equal bytes, equal data -/

theorem Memory.ext_from {lo : Nat} {m n : Memory} (hm : Memory.wfFrom lo m = true)
    (hn : Memory.wfFrom lo n = true) (h : ∀ a, m.read a = n.read a) : m = n := by
  induction m generalizing lo n with
  | nil =>
    cases n with
    | nil => rfl
    | cons kb n =>
      obtain ⟨k, b⟩ := kb
      have hn' := Memory.wfFrom_cons.mp hn
      exact absurd (by simpa [Memory.read] using (h k).symm) hn'.1.2.2
  | cons kb m ih =>
    obtain ⟨k, b⟩ := kb
    have hm' := Memory.wfFrom_cons.mp hm
    have hkb : Memory.read ((k, b) :: m) k = b := by simp [Memory.read]
    cases n with
    | nil => exact absurd (by rw [← hkb, h k]; rfl) hm'.1.2.2
    | cons lc n =>
      obtain ⟨l, c⟩ := lc
      have hn' := Memory.wfFrom_cons.mp hn
      have hlc : Memory.read ((l, c) :: n) l = c := by simp [Memory.read]
      have hkl : k = l := by
        rcases Nat.lt_trichotomy k l with hlt | heq | hgt
        · have := Memory.read_below (lo := l) (Memory.wfFrom_cons.mpr ⟨⟨le_refl l, hn'.1.2⟩, hn'.2⟩) hlt
          exact absurd (by rw [← hkb, h k, this]) hm'.1.2.2
        · exact heq
        · have := Memory.read_below (lo := k) (Memory.wfFrom_cons.mpr ⟨⟨le_refl k, hm'.1.2⟩, hm'.2⟩) hgt
          exact absurd (by rw [← hlc, ← h l, this]) hn'.1.2.2
      subst hkl
      have hbc : b = c := by rw [← hkb, h k, hlc]
      subst hbc
      rw [ih hm'.2 hn'.2 fun a => ?_]
      by_cases ha : a < k + 1
      · rw [Memory.read_below hm'.2 ha, Memory.read_below hn'.2 ha]
      · have := h a
        have hka : k ≠ a := by omega
        simpa [Memory.read, hka] using this

/-- Memories in the canonical form that hold the same bytes are the same data. -/
theorem Memory.ext {m n : Memory} (hm : m.wf = true) (hn : n.wf = true) (h : ∀ a, m.read a = n.read a) :
    m = n :=
  Memory.ext_from hm hn h

/-! ## The register file as a target of a run of loads -/

/-- What `Fx65` leaves in each register: the byte of the run, or what it held. -/
theorem getElem_putRegs (v : Vector Byte 16) (k : Nat) (bs : List Byte) (r : Nat) (hr : r < 16) :
    (putRegs v k bs)[r] = if h : k ≤ r ∧ r - k < bs.length then bs[r - k]'h.2 else v[r] := by
  induction bs generalizing v k with
  | nil => simp [putRegs]
  | cons b bs ih =>
    rw [putRegs, ih]
    by_cases h1 : k + 1 ≤ r ∧ r - (k + 1) < bs.length
    · have h2 : k ≤ r ∧ r - k < (b :: bs).length := by simp only [List.length_cons]; omega
      rw [dif_pos h1, dif_pos h2]
      have : r - k = (r - (k + 1)) + 1 := by omega
      simp [this]
    · rw [dif_neg h1, Vector.getElem_setIfInBounds]
      by_cases h3 : k = r
      · simp [h3]
      · have h4 : ¬ (k ≤ r ∧ r - k < (b :: bs).length) := by simp only [List.length_cons]; omega
        rw [dif_neg h4, if_neg h3]

end Sys2Proof.Machine
end

