-- ==== Sys2Proof/Laws/Ops.lean ====
section
/-!
SUPPORT. What each shared operation can do, said once.
-/

namespace Sys2Proof.Machine

/-! ## The stack -/

/-- A push that happens finds a free entry, fills it and counts it. -/
theorem State.push_eq_some {s t : State} {w : Word} (h : s.push w = some t) :
    ∃ hsp : s.sp.val < 16,
      t = { s with stack := s.stack.set s.sp.val w, sp := ⟨s.sp.val + 1, by omega⟩ } := by
  unfold State.push at h
  split at h
  · next hsp => exact ⟨hsp, (Option.some.inj h).symm⟩
  · cases h

/-- A push fails exactly when all sixteen entries are live. -/
theorem State.push_eq_none {s : State} {w : Word} : s.push w = none ↔ s.sp = 16 := by
  have h16 := s.sp.isLt
  have : s.push w = none ↔ ¬ s.sp.val < 16 := by simp [State.push]
  rw [this, Fin.ext_iff]
  show _ ↔ s.sp.val = 16
  omega

/-- A pop that happens finds a live entry, gives its value and uncounts it. -/
theorem State.pop_eq_some {s t : State} {w : Word} (h : s.pop = some (w, t)) :
    ∃ hsp : 0 < s.sp.val, w = s.stack[s.sp.val - 1]'(by omega) ∧
      t = { s with sp := ⟨s.sp.val - 1, by omega⟩ } := by
  unfold State.pop at h
  split at h
  · next hsp =>
    have := Prod.mk.inj (Option.some.inj h)
    exact ⟨hsp, this.1.symm, this.2.symm⟩
  · cases h

/-- A pop fails exactly when no entry is live. -/
theorem State.pop_eq_none {s : State} : s.pop = none ↔ s.sp = 0 := by
  have : s.pop = none ↔ ¬ 0 < s.sp.val := by simp [State.pop]
  rw [this, Fin.ext_iff]
  show _ ↔ s.sp.val = 0
  omega

/-! ## Operands -/

@[simp] theorem State.length_firstRegs (s : State) (x : Reg) : (s.firstRegs x).length = x.val + 1 := by
  have := x.isLt
  rw [State.firstRegs, List.length_take, Vector.length_toList]
  omega

theorem State.getElem_firstRegs (s : State) (x : Reg) (k : Nat) (h : k < (s.firstRegs x).length) :
    (s.firstRegs x)[k] = s.v[k]'(by rw [State.length_firstRegs] at h; omega) := by
  simp [State.firstRegs]

@[simp] theorem State.length_bytesAtI (s : State) (n : Nat) : (s.bytesAtI n).length = n := by
  simp [State.bytesAtI]

theorem State.getElem_bytesAtI (s : State) (n k : Nat) (h : k < (s.bytesAtI n).length) :
    (s.bytesAtI n)[k] = s.mem.read (s.effAddr k) :=
  Memory.getElem_readBytes s.mem s.i.toNat n k h

theorem State.anyPressed_iff (s : State) : s.anyPressed = true ↔ ∃ k, s.isPressed k = true := by
  simp only [State.anyPressed, State.isPressed, List.any_eq_true, id]
  constructor
  · rintro ⟨b, hb, rfl⟩
    obtain ⟨k, hk, he⟩ := List.getElem_of_mem hb
    exact ⟨⟨k, by simpa using hk⟩, by simpa using he⟩
  · rintro ⟨k, hk⟩
    exact ⟨true, by rw [← hk]; simp, rfl⟩

/-! ## Fetch -/

/-- The high byte of the word fetched is the byte at `pc` (spec 20_memory.md R52). -/
theorem State.fetchWord_high (s : State) : s.fetchWord.extractLsb 15 8 = s.mem.read (memAddr s.pc.toNat) := by
  refine BitVec.eq_of_toNat_eq ?_
  rw [BitVec.extractLsb_toNat, State.fetchWord, wordOfBytes, toNat_append_eq, Nat.shiftRight_eq_div_pow]
  omega

/-- The low byte of the word fetched is the byte after it (spec 20_memory.md R52). -/
theorem State.fetchWord_low (s : State) : s.fetchWord.extractLsb 7 0 = s.mem.read (memAddr (s.pc.toNat + 1)) := by
  refine BitVec.eq_of_toNat_eq ?_
  rw [BitVec.extractLsb_toNat, State.fetchWord, wordOfBytes, toNat_append_eq, Nat.shiftRight_eq_div_pow]
  omega

/-! ## Runs of loads and stores at `I` -/

/-- A register after `Fx65`'s load of a run of bytes. -/
theorem State.getV_setRegs (s : State) (bs : List Byte) (x : Reg) :
    (s.setRegs bs).getV x = if h : x.val < bs.length then bs[x.val] else s.getV x := by
  simp only [State.getV, State.setRegs_v]
  rw [show (putRegs s.v 0 bs)[x] = (putRegs s.v 0 bs)[x.val] from rfl, getElem_putRegs]
  simp

/-- The bytes a run of stores at `I` leaves. -/
theorem State.read_storeAtI {s : State} (h : s.mem.wf = true) (bs : List Byte) (hlen : bs.length ≤ 4096) (k : Nat)
    (hk : k < bs.length) : (s.storeAtI bs).mem.read (s.effAddr k) = bs[k] :=
  Memory.read_writeBytes_at h s.i.toNat bs hlen k hk

/-- A run of stores at `I` leaves the bytes outside it alone. -/
theorem State.read_storeAtI_other (s : State) (bs : List Byte) {a : Nat} (h : ∀ k < bs.length, s.effAddr k ≠ a) :
    (s.storeAtI bs).mem.read a = s.mem.read a :=
  Memory.read_writeBytes_other s.mem s.i.toNat bs h

theorem State.wf_storeAtI {s : State} (h : s.mem.wf = true) (bs : List Byte) : (s.storeAtI bs).mem.wf = true :=
  Memory.wf_writeBytes h s.i.toNat bs

/-! ## The shapes of the register instructions -/

/-- A load changes the one register and advances. -/
theorem State.loadV_getV (s : State) (x y : Reg) (b : Byte) :
    ((s.setV x b).advance).getV y = if x = y then b else s.getV y := by
  rw [State.getV_advance, State.getV_setV]

/-- Flag first, then the result: the result is what remains when both go to VF (spec 41_register_alu.md R121). -/
theorem State.flagThenV_getV (s : State) (c : Bool) (x y : Reg) (b : Byte) :
    (((s.setFlag c).setV x b).advance).getV y =
      if x = y then b else if regVF = y then flagByte c else s.getV y := by
  rw [State.getV_advance, State.getV_setV, State.getV_setFlag]

/-- Result first, then the flag: the flag is what remains when both go to VF (spec 41_register_alu.md R121). -/
theorem State.vThenFlag_getV (s : State) (x y : Reg) (b : Byte) (c : Bool) :
    (((s.setV x b).setFlag c).advance).getV y =
      if regVF = y then flagByte c else if x = y then b else s.getV y := by
  rw [State.getV_advance, State.getV_setFlag, State.getV_setV]

/-! ## The other agents -/

theorem tick_eq_of_halted {s : State} (h : s.halted = true) : tick s = s := by simp [tick, h]

theorem tick_eq {s : State} (h : s.halted = false) : tick s = s.decayDt.decaySt := by simp [tick, h]

/-- What a decay of `DT` can do. -/
theorem State.decayDt_cases (s : State) : (s.dt = 0 ∧ s.decayDt = s) ∨ (s.dt ≠ 0 ∧ s.decayDt = s.setDt (s.dt - 1)) := by
  by_cases h : s.dt = 0
  · exact .inl ⟨h, if_pos h⟩
  · exact .inr ⟨h, if_neg h⟩

/-- What a decay of `ST` can do. -/
theorem State.decaySt_cases (s : State) :
    (s.st = 0 ∧ s.decaySt = s) ∨ (s.st ≠ 0 ∧ s.decaySt = (s.setSt (s.st - 1)).emit .tone) := by
  by_cases h : s.st = 0
  · exact .inl ⟨h, if_pos h⟩
  · exact .inr ⟨h, if_neg h⟩

/-- What a reset can do: it starts a core from the image and the parameters, or leaves everything as it was. -/
theorem resetTo_cases (cfg : Config) (image : Option (List Byte)) (m : Option State) :
    (∃ bytes draws outputs, image = some bytes ∧ bytes.length ≤ maxImage ∧
      resetTo cfg image m = (some (State.boot cfg bytes draws outputs), .accepted)) ∨
    resetTo cfg image m = (m, .loadFailure) := by
  unfold resetTo
  cases image with
  | none => exact .inr rfl
  | some bytes =>
    simp only
    split
    · next hlen =>
      left
      cases m with
      | none => exact ⟨bytes, 0, [], rfl, hlen, rfl⟩
      | some s => exact ⟨bytes, s.draws, s.outputs, rfl, hlen, rfl⟩
    · exact .inr rfl

theorem wf_bootMemory (cfg : Config) (image : List Byte) : (bootMemory cfg image).wf = true :=
  Memory.wf_writeBytes (Memory.wf_writeBytes rfl 0 _) _ _

theorem length_glyphBytes (cfg : Config) : (glyphBytes cfg).length = 80 := by
  have : ∀ l : List (Vector Byte 5), (l.flatMap Vector.toList).length = 5 * l.length := by
    intro l
    induction l with
    | nil => rfl
    | cons v l ih => simp only [List.flatMap_cons, List.length_append, ih, Vector.length_toList, List.length_cons]; omega
  simp [glyphBytes, this]

/-- Byte `a` of the glyph table: row `a % 5` of glyph `a / 5` (spec 10_state.md R18). -/
theorem getElem_glyphBytes (cfg : Config) (a : Nat) (h : a < (glyphBytes cfg).length) :
    (glyphBytes cfg)[a] = (cfg.glyphs[a / 5]'(by rw [length_glyphBytes] at h; omega))[a % 5]'(by omega) := by
  have aux : ∀ (l : List (Vector Byte 5)) (a : Nat) (h1 : a < (l.flatMap Vector.toList).length) (h2 : a / 5 < l.length),
      (l.flatMap Vector.toList)[a] = (l[a / 5])[a % 5]'(by omega) := by
    intro l
    induction l with
    | nil => intro a h1; simp at h1
    | cons v l ih =>
      intro a h1 h2
      simp only [List.flatMap_cons]
      by_cases ha : a < 5
      · have h0 : a / 5 = 0 := by omega
        have hm : a % 5 = a := by omega
        rw [List.getElem_append_left (by simpa using ha)]
        simp [h0, hm]
      · rw [List.getElem_append_right (by simp; omega)]
        have hd : a / 5 = (a - 5) / 5 + 1 := by omega
        have hm : a % 5 = (a - 5) % 5 := by omega
        simp only [List.length_cons] at h2
        have := ih (a - 5) (by simp at h1 ⊢; omega) (by omega)
        simp only [Vector.length_toList, hd, hm, List.getElem_cons_succ]
        exact this
  have h80 := length_glyphBytes cfg
  have := aux cfg.glyphs.toList a h (by simp; omega)
  simp only [Vector.getElem_toList] at this
  exact this

end Sys2Proof.Machine
end

