-- ==== Sys2Proof/Laws/Exec.lean ====
section
/-!
SUPPORT. What an instruction and a step can do, said once.
-/

namespace Sys2Proof.Machine

/-! ## Call and return, by the stack level -/

theorem execRet_of_empty {s : State} (h : s.sp = 0) :
    exec .ret s = .next (s.hardFault .stackUnderflow 0x00EE) := by
  show execRet s = _
  rw [execRet, State.pop_eq_none.mpr h]
  rfl

theorem execRet_of_live {s : State} (h : 0 < s.sp.val) :
    exec .ret s = .next { s with
      pc := s.stack[s.sp.val - 1]'(by omega)
      sp := ⟨s.sp.val - 1, by omega⟩ } := by
  show execRet s = _
  rw [execRet, State.pop, dif_pos h]
  rfl

theorem execCall_of_full {s : State} (h : s.sp = 16) (nnn : Addr12) :
    exec (.call nnn) s = .next (s.hardFault .stackOverflow (0x2#4 ++ nnn)) := by
  show execCall nnn s = _
  rw [execCall, State.push_eq_none.mpr h]
  rfl

theorem execCall_of_room {s : State} (h : s.sp.val < 16) (nnn : Addr12) :
    exec (.call nnn) s = .next { s with
      pc := zext16 nnn
      stack := s.stack.set s.sp.val (s.pc + 2)
      sp := ⟨s.sp.val + 1, by omega⟩ } := by
  show execCall nnn s = _
  rw [execCall, State.push, dif_pos h]
  rfl

/-- A step level is either full or has room. -/
theorem sp_full_or_room (s : State) : s.sp = 16 ∨ s.sp.val < 16 := by
  by_cases h : s.sp.val < 16
  · exact .inr h
  · exact .inl (Fin.ext (by have := s.sp.isLt; show s.sp.val = 16; omega))

/-- A stack level is either empty or has a live entry. -/
theorem sp_empty_or_live (s : State) : s.sp = 0 ∨ 0 < s.sp.val := by
  by_cases h : 0 < s.sp.val
  · exact .inr h
  · exact .inl (Fin.ext (by show s.sp.val = 0; omega))

/-! ## Every instruction -/

/-- What an instruction can do to the fault state, the history of events, the canonical forms and the sizes of the
framebuffer: it enters a hard fault, by a call on a full stack or a return on an empty one, or it leaves the fault
state and the events alone and keeps the rest. -/
theorem exec_cases (ins : Instr) (s : State) : ∃ t, exec ins s = .next t ∧
    ((∃ nnn, ins = .call nnn ∧ s.sp = 16 ∧ t = s.hardFault .stackOverflow (0x2#4 ++ nnn)) ∨
     (ins = .ret ∧ s.sp = 0 ∧ t = s.hardFault .stackUnderflow 0x00EE) ∨
     (¬ (∃ nnn, ins = .call nnn ∧ s.sp = 16) ∧ ¬ (ins = .ret ∧ s.sp = 0) ∧
      t.halted = s.halted ∧ t.faultCause = s.faultCause ∧ t.faultInstr = s.faultInstr ∧ t.faultPc = s.faultPc ∧
      t.outputs = s.outputs ∧ (s.mem.wf = true → t.mem.wf = true) ∧ (s.fb.wf = true → t.fb.wf = true) ∧
      t.fb.rows = s.fb.rows ∧ t.fb.cols = s.fb.cols)) := by
  cases ins
  case ret =>
    rcases sp_empty_or_live s with h | h
    · exact ⟨_, execRet_of_empty h, .inr (.inl ⟨rfl, h, rfl⟩)⟩
    · have h0 : s.sp ≠ 0 := by intro he; rw [he] at h; exact absurd h (by decide)
      exact ⟨_, execRet_of_live h, .inr (.inr (by simp [h0]))⟩
  case call nnn =>
    rcases sp_full_or_room s with h | h
    · exact ⟨_, execCall_of_full h nnn, .inl ⟨nnn, rfl, h, rfl⟩⟩
    · have h0 : s.sp ≠ 16 := by intro he; rw [he] at h; exact absurd h (by decide)
      exact ⟨_, execCall_of_room h nnn, .inr (.inr (by simp [h0]))⟩
  case ldVxKey x =>
    refine ⟨_, rfl, .inr (.inr ?_)⟩
    split <;> simp
  case cls => exact ⟨_, rfl, .inr (.inr (by simpa using Grid.wf_clear))⟩
  case drw x y n => exact ⟨_, rfl, .inr (.inr (by simpa using fun h => Grid.wf_drawSprite h _ _ _))⟩
  case ldBcd x => exact ⟨_, rfl, .inr (.inr (by simpa using fun h => Memory.wf_writeBytes h _ _))⟩
  case storeRegs x => exact ⟨_, rfl, .inr (.inr (by simpa using fun h => Memory.wf_writeBytes h _ _))⟩
  all_goals exact ⟨_, rfl, .inr (.inr (by simp))⟩

/-! ## A step -/

/-- What a step can do: nothing while halted, else run the instruction or report the word. -/
theorem step_cases (s : State) :
    (s.halted = true ∧ step s = .next s) ∨
    (s.halted = false ∧ ∃ ins, decodeWord s.fetchWord = .ok ins ∧ step s = exec ins s) ∨
    (s.halted = false ∧ ∃ why, decodeWord s.fetchWord = .error why ∧ step s = .next (s.diagnose s.fetchWord)) := by
  cases h : s.halted
  · right
    cases hd : decodeWord s.fetchWord with
    | ok ins => exact .inl ⟨rfl, ins, rfl, by simp [step, h, hd]⟩
    | error why => exact .inr ⟨rfl, why, rfl, by simp [step, h, hd]⟩
  · exact .inl ⟨rfl, by simp [step, h]⟩

end Sys2Proof.Machine
end

