-- ==== Sys2Proof/Laws/PerInstr.lean ====
section
/-!
SUPPORT. Statements about every instruction, one lemma per constructor.
-/

namespace Sys2Proof.Laws

/-! ## Words select their rows

The word of an instruction selects the row of the opcode map that carries the instruction's pattern
(spec 30_encoding.md R86). -/

theorem and_F (b : BitVec 4) : b &&& 0xF#4 = b := by
  revert b; decide

theorem and_0 {w : Nat} (b : BitVec w) : b &&& 0#w = 0#w := BitVec.and_zero

/-- A row that a word of format `NNN` selects whatever its address. -/
theorem selects_NNN (r : OpcodeRow) (op : BitVec 4) (hm : r.mask = 0xF#4 ++ 0#12) (hv : r.value = op ++ 0#12)
    (nnn : Addr12) : r.selects (encodeNNN op nnn) = true := by
  rw [OpcodeRow.selects, hm, hv, encodeNNN, BitVec.and_append, and_F, and_0]
  exact beq_self_eq_true _

/-- A row that a word of format `XNN` or `X` selects: its low byte is fixed by the low byte of the mask. -/
theorem selects_XNN (r : OpcodeRow) (op : BitVec 4) (nn lowMask : Byte) (hm : r.mask = 0xF#4 ++ 0#4 ++ lowMask)
    (hv : r.value = op ++ 0#4 ++ (nn &&& lowMask)) (x : Reg) : r.selects (encodeXNN op x nn) = true := by
  rw [OpcodeRow.selects, hm, hv, encodeXNN, BitVec.and_append, BitVec.and_append, and_F, and_0]
  exact beq_self_eq_true _

/-- A row that a word of format `XYN` or `XY` selects: its low digit is fixed by the low digit of the mask. -/
theorem selects_XYN (r : OpcodeRow) (op lowMask : BitVec 4) (n : Fin 16)
    (hm : r.mask = 0xF#4 ++ 0#4 ++ 0#4 ++ lowMask)
    (hv : r.value = op ++ 0#4 ++ 0#4 ++ (nibble n &&& lowMask)) (x y : Reg) :
    r.selects (encodeXYN op x y n) = true := by
  rw [OpcodeRow.selects, hm, hv, encodeXYN, BitVec.and_append, BitVec.and_append, BitVec.and_append, and_F, and_0,
    and_0]
  exact beq_self_eq_true _

/-- The word of the instruction selects a row of the opcode map that carries its pattern. -/
def RowSelected.Statement (ins : Instr) : Prop :=
  ∃ r ∈ opcodeMap, r.pattern = ins.pattern ∧ r.selects (encode ins) = true

theorem RowSelected.cls : RowSelected.Statement .cls :=
  ⟨⟨"00E0", 0xFFFF, 0x00E0⟩, by decide, rfl, by decide⟩

theorem RowSelected.ret : RowSelected.Statement .ret :=
  ⟨⟨"00EE", 0xFFFF, 0x00EE⟩, by decide, rfl, by decide⟩

theorem RowSelected.jp (nnn : Addr12) : RowSelected.Statement (.jp nnn) :=
  ⟨⟨"1nnn", 0xF000, 0x1000⟩, by decide, rfl, selects_NNN _ 0x1 (by decide) (by decide) nnn⟩

theorem RowSelected.call (nnn : Addr12) : RowSelected.Statement (.call nnn) :=
  ⟨⟨"2nnn", 0xF000, 0x2000⟩, by decide, rfl, selects_NNN _ 0x2 (by decide) (by decide) nnn⟩

theorem RowSelected.seImm (x : Reg) (nn : Byte) : RowSelected.Statement (.seImm x nn) :=
  ⟨⟨"3xnn", 0xF000, 0x3000⟩, by decide, rfl, selects_XNN _ 0x3 nn 0 (by decide) (by simp) x⟩

theorem RowSelected.sneImm (x : Reg) (nn : Byte) : RowSelected.Statement (.sneImm x nn) :=
  ⟨⟨"4xnn", 0xF000, 0x4000⟩, by decide, rfl, selects_XNN _ 0x4 nn 0 (by decide) (by simp) x⟩

theorem RowSelected.seReg (x y : Reg) : RowSelected.Statement (.seReg x y) :=
  ⟨⟨"5xy0", 0xF00F, 0x5000⟩, by decide, rfl, selects_XYN _ 0x5 0xF 0x0 (by decide) (by decide) x y⟩

theorem RowSelected.ldImm (x : Reg) (nn : Byte) : RowSelected.Statement (.ldImm x nn) :=
  ⟨⟨"6xnn", 0xF000, 0x6000⟩, by decide, rfl, selects_XNN _ 0x6 nn 0 (by decide) (by simp) x⟩

theorem RowSelected.addImm (x : Reg) (nn : Byte) : RowSelected.Statement (.addImm x nn) :=
  ⟨⟨"7xnn", 0xF000, 0x7000⟩, by decide, rfl, selects_XNN _ 0x7 nn 0 (by decide) (by simp) x⟩

theorem RowSelected.ldReg (x y : Reg) : RowSelected.Statement (.ldReg x y) :=
  ⟨⟨"8xy0", 0xF00F, 0x8000⟩, by decide, rfl, selects_XYN _ 0x8 0xF 0x0 (by decide) (by decide) x y⟩

theorem RowSelected.orReg (x y : Reg) : RowSelected.Statement (.orReg x y) :=
  ⟨⟨"8xy1", 0xF00F, 0x8001⟩, by decide, rfl, selects_XYN _ 0x8 0xF 0x1 (by decide) (by decide) x y⟩

theorem RowSelected.andReg (x y : Reg) : RowSelected.Statement (.andReg x y) :=
  ⟨⟨"8xy2", 0xF00F, 0x8002⟩, by decide, rfl, selects_XYN _ 0x8 0xF 0x2 (by decide) (by decide) x y⟩

theorem RowSelected.xorReg (x y : Reg) : RowSelected.Statement (.xorReg x y) :=
  ⟨⟨"8xy3", 0xF00F, 0x8003⟩, by decide, rfl, selects_XYN _ 0x8 0xF 0x3 (by decide) (by decide) x y⟩

theorem RowSelected.addReg (x y : Reg) : RowSelected.Statement (.addReg x y) :=
  ⟨⟨"8xy4", 0xF00F, 0x8004⟩, by decide, rfl, selects_XYN _ 0x8 0xF 0x4 (by decide) (by decide) x y⟩

theorem RowSelected.subReg (x y : Reg) : RowSelected.Statement (.subReg x y) :=
  ⟨⟨"8xy5", 0xF00F, 0x8005⟩, by decide, rfl, selects_XYN _ 0x8 0xF 0x5 (by decide) (by decide) x y⟩

theorem RowSelected.shr (x y : Reg) : RowSelected.Statement (.shr x y) :=
  ⟨⟨"8xy6", 0xF00F, 0x8006⟩, by decide, rfl, selects_XYN _ 0x8 0xF 0x6 (by decide) (by decide) x y⟩

theorem RowSelected.subnReg (x y : Reg) : RowSelected.Statement (.subnReg x y) :=
  ⟨⟨"8xy7", 0xF00F, 0x8007⟩, by decide, rfl, selects_XYN _ 0x8 0xF 0x7 (by decide) (by decide) x y⟩

theorem RowSelected.shl (x y : Reg) : RowSelected.Statement (.shl x y) :=
  ⟨⟨"8xyE", 0xF00F, 0x800E⟩, by decide, rfl, selects_XYN _ 0x8 0xF 0xE (by decide) (by decide) x y⟩

theorem RowSelected.sneReg (x y : Reg) : RowSelected.Statement (.sneReg x y) :=
  ⟨⟨"9xy0", 0xF00F, 0x9000⟩, by decide, rfl, selects_XYN _ 0x9 0xF 0x0 (by decide) (by decide) x y⟩

theorem RowSelected.ldI (nnn : Addr12) : RowSelected.Statement (.ldI nnn) :=
  ⟨⟨"Annn", 0xF000, 0xA000⟩, by decide, rfl, selects_NNN _ 0xA (by decide) (by decide) nnn⟩

theorem RowSelected.jpx (x : Reg) (nnn : Addr12) : RowSelected.Statement (.jpx x nnn) :=
  ⟨⟨"Bnnn", 0xF000, 0xB000⟩, by decide, rfl, selects_NNN _ 0xB (by decide) (by decide) nnn⟩

theorem RowSelected.rnd (x : Reg) (nn : Byte) : RowSelected.Statement (.rnd x nn) :=
  ⟨⟨"Cxnn", 0xF000, 0xC000⟩, by decide, rfl, selects_XNN _ 0xC nn 0 (by decide) (by simp) x⟩

theorem RowSelected.drw (x y : Reg) (n : Fin 16) : RowSelected.Statement (.drw x y n) :=
  ⟨⟨"Dxyn", 0xF000, 0xD000⟩, by decide, rfl, selects_XYN _ 0xD 0 n (by decide) (by simp) x y⟩

theorem RowSelected.skp (x : Reg) : RowSelected.Statement (.skp x) :=
  ⟨⟨"Ex9E", 0xF0FF, 0xE09E⟩, by decide, rfl, selects_XNN _ 0xE 0x9E 0xFF (by decide) (by decide) x⟩

theorem RowSelected.sknp (x : Reg) : RowSelected.Statement (.sknp x) :=
  ⟨⟨"ExA1", 0xF0FF, 0xE0A1⟩, by decide, rfl, selects_XNN _ 0xE 0xA1 0xFF (by decide) (by decide) x⟩

theorem RowSelected.ldVxDt (x : Reg) : RowSelected.Statement (.ldVxDt x) :=
  ⟨⟨"Fx07", 0xF0FF, 0xF007⟩, by decide, rfl, selects_XNN _ 0xF 0x07 0xFF (by decide) (by decide) x⟩

theorem RowSelected.ldVxKey (x : Reg) : RowSelected.Statement (.ldVxKey x) :=
  ⟨⟨"Fx0A", 0xF0FF, 0xF00A⟩, by decide, rfl, selects_XNN _ 0xF 0x0A 0xFF (by decide) (by decide) x⟩

theorem RowSelected.ldDtVx (x : Reg) : RowSelected.Statement (.ldDtVx x) :=
  ⟨⟨"Fx15", 0xF0FF, 0xF015⟩, by decide, rfl, selects_XNN _ 0xF 0x15 0xFF (by decide) (by decide) x⟩

theorem RowSelected.ldStVx (x : Reg) : RowSelected.Statement (.ldStVx x) :=
  ⟨⟨"Fx18", 0xF0FF, 0xF018⟩, by decide, rfl, selects_XNN _ 0xF 0x18 0xFF (by decide) (by decide) x⟩

theorem RowSelected.addI (x : Reg) : RowSelected.Statement (.addI x) :=
  ⟨⟨"Fx1E", 0xF0FF, 0xF01E⟩, by decide, rfl, selects_XNN _ 0xF 0x1E 0xFF (by decide) (by decide) x⟩

theorem RowSelected.ldGlyph (x : Reg) : RowSelected.Statement (.ldGlyph x) :=
  ⟨⟨"Fx29", 0xF0FF, 0xF029⟩, by decide, rfl, selects_XNN _ 0xF 0x29 0xFF (by decide) (by decide) x⟩

theorem RowSelected.ldBcd (x : Reg) : RowSelected.Statement (.ldBcd x) :=
  ⟨⟨"Fx33", 0xF0FF, 0xF033⟩, by decide, rfl, selects_XNN _ 0xF 0x33 0xFF (by decide) (by decide) x⟩

theorem RowSelected.storeRegs (x : Reg) : RowSelected.Statement (.storeRegs x) :=
  ⟨⟨"Fx55", 0xF0FF, 0xF055⟩, by decide, rfl, selects_XNN _ 0xF 0x55 0xFF (by decide) (by decide) x⟩

theorem RowSelected.loadRegs (x : Reg) : RowSelected.Statement (.loadRegs x) :=
  ⟨⟨"Fx65", 0xF0FF, 0xF065⟩, by decide, rfl, selects_XNN _ 0xF 0x65 0xFF (by decide) (by decide) x⟩

end Sys2Proof.Laws
end

