-- ==== Sys2Proof/Tests/Slice0.lean ====
section
/-!
SUPPORT. Tests of the definitions on small states, with the expected values of spec 95_test_vectors.md or worked out
by hand from the rule named, and witnesses that the hypotheses of the statements are met.
-/

namespace Sys2Proof.Tests

open Sys2Proof.Machine

/-! ## Well-formedness -/

/-- The one check there is refuses a `Bnnn` whose register is not the top digit of its address (R84, R104). -/
theorem test_wf_refuses_wrong_jpx : ¬ WellFormed (.jpx 3 0x2F0) := by decide

theorem test_wf_accepts_jpx : WellFormed (.jpx 2 0x2F0) := by decide

/-! ## Decoding: one word per constructor, written from the row of R86 -/

theorem test_decode_fixed : decodeWord 0x00E0 = .ok .cls ∧ decodeWord 0x00EE = .ok .ret := by decide

theorem test_decode_address : decodeWord 0x1ABC = .ok (.jp 0xABC) ∧ decodeWord 0x2DEF = .ok (.call 0xDEF) ∧
    decodeWord 0xA20C = .ok (.ldI 0x20C) ∧ decodeWord 0xB2F0 = .ok (.jpx 2 0x2F0) := by decide

theorem test_decode_immediate : decodeWord 0x3142 = .ok (.seImm 1 0x42) ∧
    decodeWord 0x4E05 = .ok (.sneImm 14 0x05) ∧ decodeWord 0x6A3E = .ok (.ldImm 10 0x3E) ∧
    decodeWord 0x71FF = .ok (.addImm 1 0xFF) ∧ decodeWord 0xC10F = .ok (.rnd 1 0x0F) := by decide

theorem test_decode_registers : decodeWord 0x5230 = .ok (.seReg 2 3) ∧ decodeWord 0x8120 = .ok (.ldReg 1 2) ∧
    decodeWord 0x8121 = .ok (.orReg 1 2) ∧ decodeWord 0x8122 = .ok (.andReg 1 2) ∧
    decodeWord 0x8123 = .ok (.xorReg 1 2) ∧ decodeWord 0x8124 = .ok (.addReg 1 2) := by decide

theorem test_decode_registers_too : decodeWord 0x8125 = .ok (.subReg 1 2) ∧ decodeWord 0x8126 = .ok (.shr 1 2) ∧
    decodeWord 0x8127 = .ok (.subnReg 1 2) ∧ decodeWord 0x812E = .ok (.shl 1 2) ∧
    decodeWord 0x9230 = .ok (.sneReg 2 3) := by decide

theorem test_decode_draw : decodeWord 0xD5A3 = .ok (.drw 5 10 3) := by decide

theorem test_decode_keys_timers : decodeWord 0xE39E = .ok (.skp 3) ∧ decodeWord 0xE3A1 = .ok (.sknp 3) ∧
    decodeWord 0xF307 = .ok (.ldVxDt 3) ∧ decodeWord 0xF50A = .ok (.ldVxKey 5) ∧
    decodeWord 0xF015 = .ok (.ldDtVx 0) ∧ decodeWord 0xF118 = .ok (.ldStVx 1) := by decide

theorem test_decode_index : decodeWord 0xF21E = .ok (.addI 2) ∧ decodeWord 0xF029 = .ok (.ldGlyph 0) ∧
    decodeWord 0xF033 = .ok (.ldBcd 0) ∧ decodeWord 0xF255 = .ok (.storeRegs 2) ∧
    decodeWord 0xFF65 = .ok (.loadRegs 15) := by decide

/-- The words of R88 in 95_test_vectors.md section 2.6. -/
theorem test_decode_unrecognized : decodeWord 0x0000 = .error .op0 ∧ decodeWord 0x00E1 = .error .op0 ∧
    decodeWord 0x0123 = .error .op0 ∧ decodeWord 0x5121 = .error .op5 ∧ decodeWord 0x8128 = .error .op8 ∧
    decodeWord 0x812F = .error .op8 ∧ decodeWord 0x9121 = .error .op9 := by decide

theorem test_decode_unrecognized_too : decodeWord 0xE19F = .error .opE ∧ decodeWord 0xE000 = .error .opE ∧
    decodeWord 0xF100 = .error .opF ∧ decodeWord 0xF130 = .error .opF ∧ decodeWord 0xF175 = .error .opF ∧
    decodeWord 0xF185 = .error .opF := by decide

/-- Bytes: the high byte lies first, the rest of the list is given back (R52, R81). -/
theorem test_decode_bytes : decode [0x6A, 0x3E, 0x12] = .ok (.ldImm 10 0x3E, [0x12]) ∧
    decode [0x6A] = .error .truncated ∧ decode [0x00, 0x00] = .error (.unrecognized .op0) := by decide

theorem test_decode_table_word : decodeTableWord 16 0x6A3E = some (.ldImm 10 0x3E) ∧
    decodeTableWord 16 0x8128 = none := by decide

/-- The encoder, on the words above. -/
theorem test_encode : encode (.jp 0xABC) = 0x1ABC ∧ encode (.ldImm 10 0x3E) = 0x6A3E ∧
    encode (.addReg 1 2) = 0x8124 ∧ encode (.drw 5 10 3) = 0xD5A3 ∧ encode (.loadRegs 15) = 0xFF65 := by decide

/-! ## Helpers -/

/-- The next state of a result, where there is one. -/
def nextOf : Result → Option State
  | .next t => some t
  | .fault _ => none
  | .refused _ => none

/-- What one step of a word placed at `pc` leaves, seen through `f`. -/
def after {α : Type} (s : State) (w : Nat) (f : State → α) : Option α := (nextOf (step (s.withFetchWord 16 w))).map f

/-- A core after reset with VF = 0x55 and two registers set. -/
def two (a b : Byte) : State := ((State.reset.setV 15 0x55).setV 1 a).setV 2 b

/-- A core after reset with bytes at `I`. -/
def withBytes (i : Word) (bs : List Byte) : State := (State.reset.setI i).storeAtI bs

/-- The pixels that are on, by row and column. -/
def on (s : State) : List (Nat × Nat) := s.fb.lit.map fun p => (p / s.fb.cols, p % s.fb.cols)

/-- A core with `k` calls outstanding from 0x200. -/
def deep (k : Fin 17) : State := { State.reset with sp := k, stack := Vector.replicate 16 0x0202 }

/-! ## Control transfer (95_test_vectors.md section 2.1) -/

theorem test_jp : after State.reset 0x1ABC (·.pc) = some 0x0ABC ∧ after State.reset 0x1200 (·.pc) = some 0x0200 := by
  decide

theorem test_call : after State.reset 0x2300 (fun t => (t.stack[0], t.sp, t.pc)) = some (0x0202, 1, 0x0300) := by
  decide

theorem test_call_at_top : after (State.reset.setPc 0xFFFE) 0x2300 (fun t => (t.stack[0], t.sp, t.pc)) =
    some (0x0000, 1, 0x0300) := by decide

theorem test_ret : after ((deep 1).setPc 0x0300) 0x00EE (fun t => (t.sp, t.pc)) = some (0, 0x0202) := by decide

theorem test_ret_underflow : after State.reset 0x00EE (fun t => (t.halted, t.faultCause.code, t.faultInstr, t.faultPc,
    t.pc, t.sp)) = some (true, 2, 0x00EE, 0x0200, 0x0200, 0) := by decide

theorem test_call_overflow : after (deep 16) 0x2200 (fun t => (t.halted, t.faultCause.code, t.faultInstr, t.faultPc,
    t.pc, t.sp)) = some (true, 1, 0x2200, 0x0200, 0x0200, 16) := by decide

theorem test_jpx : after (State.reset.setV 3 0x10) 0xB300 (·.pc) = some 0x0310 ∧
    after ((State.reset.setV 2 0x04).setV 0 0x80) 0xB2F0 (·.pc) = some 0x02F4 ∧
    after (State.reset.setV 15 0xFF) 0xBFFF (·.pc) = some 0x10FE := by decide

theorem test_se_imm : after (two 0 0) 0x3100 (·.pc) = some 0x0204 ∧ after (two 1 0) 0x3100 (·.pc) = some 0x0202 := by
  decide

/-- `pc` wraps over a skip (R13). -/
theorem test_se_imm_at_top : after (State.reset.setPc 0xFFFE) 0x3000 (·.pc) = some 0x0002 := by decide

theorem test_sne_imm : after (State.reset.setV 0 5) 0x4005 (·.pc) = some 0x0202 ∧
    after (State.reset.setV 0 5) 0x4006 (·.pc) = some 0x0204 := by decide

theorem test_se_reg : after ((State.reset.setV 2 7).setV 3 7) 0x5230 (·.pc) = some 0x0204 ∧
    after ((State.reset.setV 2 7).setV 3 8) 0x5230 (·.pc) = some 0x0202 ∧
    after State.reset 0x5110 (·.pc) = some 0x0204 := by decide

theorem test_sne_reg : after ((State.reset.setV 2 7).setV 3 8) 0x9230 (·.pc) = some 0x0204 ∧
    after State.reset 0x9110 (·.pc) = some 0x0202 := by decide

/-! ## Registers and arithmetic (section 2.2): `V[1]` and VF after -/

/-- `V[1]` and VF. -/
def v1vf (t : State) : Byte × Byte := (t.getV 1, t.getV 15)

theorem test_ld_imm : after (two 0 0) 0x6A3E (fun t => (t.getV 10, t.getV 15)) = some (0x3E, 0x55) ∧
    after (two 0 0) 0x6F07 (·.getV 15) = some 0x07 := by decide

theorem test_add_imm : after (two 0xFF 0) 0x7102 v1vf = some (0x01, 0x55) := by decide

theorem test_ld_reg : after (two 0x01 0x09) 0x8120 v1vf = some (0x09, 0x55) := by decide

theorem test_or : after (two 0xF0 0x0F) 0x8121 v1vf = some (0xFF, 0x55) := by decide

theorem test_and : after (two 0xF0 0x3C) 0x8122 v1vf = some (0x30, 0x55) := by decide

theorem test_xor : after (two 0xF0 0x3C) 0x8123 v1vf = some (0xCC, 0x55) ∧
    after (two 0x90 0) 0x8113 v1vf = some (0x00, 0x55) := by decide

theorem test_add : after (two 0xFF 0x01) 0x8124 v1vf = some (0x00, 0x01) ∧
    after (two 0x80 0x7F) 0x8124 v1vf = some (0xFF, 0x00) ∧
    after (two 0x90 0) 0x8114 v1vf = some (0x20, 0x01) := by decide

/-- VF as destination holds the carry, as source it is read first (decision D9). -/
theorem test_add_vf : after ((two 0x02 0).setV 15 0xFF) 0x8F14 v1vf = some (0x02, 0x01) ∧
    after ((two 0xFF 0).setV 15 0x01) 0x81F4 v1vf = some (0x00, 0x01) ∧
    after ((two 0 0).setV 15 0x90) 0x8FF4 (·.getV 15) = some 0x01 := by decide

theorem test_sub : after (two 0x05 0x03) 0x8125 v1vf = some (0x02, 0x01) ∧
    after (two 0x03 0x05) 0x8125 v1vf = some (0xFE, 0x00) ∧
    after (two 0x05 0x05) 0x8125 v1vf = some (0x00, 0x00) := by decide

/-- VF as destination holds the difference (decision D9). -/
theorem test_sub_vf : after ((two 0x02 0).setV 15 0x09) 0x8F15 v1vf = some (0x02, 0x07) ∧
    after ((two 0x05 0).setV 15 0x03) 0x81F5 v1vf = some (0x02, 0x01) := by decide

theorem test_shr : after (two 0x05 0x99) 0x8126 v1vf = some (0x02, 0x01) ∧
    after (two 0xFF 0) 0x8126 v1vf = some (0x7F, 0x01) ∧
    after (two 0x05 0) 0x81F6 v1vf = some (0x02, 0x01) := by decide

theorem test_shr_vf : after ((two 0 0).setV 15 0x05) 0x8F16 (·.getV 15) = some 0x02 := by decide

theorem test_subn : after (two 0x03 0x05) 0x8127 v1vf = some (0x02, 0x01) ∧
    after (two 0x05 0x03) 0x8127 v1vf = some (0xFE, 0x00) ∧
    after (two 0x05 0x05) 0x8127 v1vf = some (0x00, 0x00) := by decide

theorem test_subn_vf : after ((two 0x0A 0).setV 15 0x03) 0x8F17 v1vf = some (0x0A, 0x07) ∧
    after ((two 0x05 0).setV 15 0x09) 0x81F7 v1vf = some (0x04, 0x01) := by decide

theorem test_shl : after (two 0x81 0x99) 0x812E v1vf = some (0x02, 0x01) ∧
    after (two 0x7F 0) 0x812E v1vf = some (0xFE, 0x00) := by decide

theorem test_shl_vf : after ((two 0 0).setV 15 0x81) 0x8F1E (·.getV 15) = some 0x02 := by decide

/-- The fields of the next state that the spec fixes; the byte itself is free. -/
theorem test_rnd : after (two 0 0) 0xC10F (fun t => (t.getV 15, t.pc, t.draws)) = some (0x55, 0x0202, 1) := by decide

/-! ## Index register and memory (section 2.3) -/

theorem test_ld_i : after State.reset 0xA20C (·.i) = some 0x020C ∧ after State.reset 0xAFFF (·.i) = some 0x0FFF := by
  decide

theorem test_add_i : after ((State.reset.setI 0x0FFF).setV 0 1) 0xF01E (fun t => (t.i, t.getV 15)) =
      some (0x1000, 0) ∧
    after ((State.reset.setI 0xFFFF).setV 0 2) 0xF01E (·.i) = some 0x0001 := by decide

theorem test_ld_glyph : after (State.reset.setV 0 0x0F) 0xF029 (·.i) = some 0x004B ∧
    after (State.reset.setV 0 0x1A) 0xF029 (·.i) = some 0x0082 ∧
    after (State.reset.setV 0 0xFF) 0xF029 (·.i) = some 0x04FB := by decide

theorem test_bcd : after ((State.reset.setI 0x0300).setV 0 254) 0xF033 (fun t => t.mem.readBytes 0x300 3) =
    some [2, 5, 4] := by decide

/-- The third digit lands on the first glyph byte (R54). -/
theorem test_bcd_wraps : after ((State.reset.setI 0x0FFE).setV 0 123) 0xF033 (fun t => (t.mem.readBytes 0xFFE 2,
    t.mem.read 0)) = some ([1, 2], 3) := by decide

theorem test_store_regs : after (((State.reset.setI 0x0400).setV 0 0x11).setV 2 0x33 |>.setV 3 0x44) 0xF255
    (fun t => (t.mem.readBytes 0x400 4, t.i)) = some ([0x11, 0, 0x33, 0], 0x0400) := by decide

theorem test_store_regs_wraps : after (((State.reset.setI 0x0FFF).setV 0 0xAA).setV 1 0xBB) 0xF155
    (fun t => (t.mem.read 0xFFF, t.mem.read 0, t.i)) = some (0xAA, 0xBB, 0x0FFF) := by decide

theorem test_load_regs : after (withBytes 0x0300 [2, 5, 4, 9]) 0xF265
    (fun t => (t.getV 0, t.getV 1, t.getV 2, t.getV 3, t.i)) = some (2, 5, 4, 0, 0x0300) := by decide

theorem test_load_regs_all : after (withBytes 0x0300 ((List.range 16).map fun k => BitVec.ofNat 8 (0x10 + k))) 0xFF65
    (fun t => (t.getV 0, t.getV 15)) = some (0x10, 0x1F) := by decide

/-! ## Display (section 2.4), 64 by 32 -/

theorem test_cls : after (State.reset.setFb (State.reset.fb.flip 3 4)) 0x00E0 (fun t => (on t, t.getV 15)) =
    some ([], 0) := by decide

/-- The sprite of section 1.4 wraps at the right edge. -/
theorem test_drw_wraps : after ((withBytes 0x0300 [0xFF]).setV 0 63) 0xD011 (fun t => (on t, t.getV 15)) =
    some ([(0, 0), (0, 1), (0, 2), (0, 3), (0, 4), (0, 5), (0, 6), (0, 63)], 0) := by decide

/-- One pixel turns on, one off, one stays (section 2.4). -/
theorem test_drw_collides : after ((withBytes 0x0300 [0xC0]).setFb ((State.reset.fb.flip 0 1).flip 0 2)) 0xD001
    (fun t => (on t, t.getV 15)) = some ([(0, 0), (0, 2)], 1) := by decide

/-! ## Keys and timers (section 2.5) -/

theorem test_skp : after (press 10 (State.reset.setV 3 0x0A)) 0xE39E (·.pc) = some 0x0204 ∧
    after (State.reset.setV 3 0x0A) 0xE39E (·.pc) = some 0x0202 ∧
    after (press 10 (State.reset.setV 3 0x1A)) 0xE39E (·.pc) = some 0x0204 := by decide

theorem test_sknp : after (press 10 (State.reset.setV 3 0x0A)) 0xE3A1 (·.pc) = some 0x0202 ∧
    after (State.reset.setV 3 0x0A) 0xE3A1 (·.pc) = some 0x0204 := by decide

theorem test_key_wait_polls : after State.reset 0xF50A (fun t => (t.getV 5, t.pc)) = some (0, 0x0200) := by decide

/-- The last key pressed, though it is up again (decision D11). -/
theorem test_key_wait_last_key : after (release 5 (press 5 (press 3 State.reset))) 0xF50A
    (fun t => (t.getV 5, t.pc, t.isPressed 3, t.isPressed 5)) = some (5, 0x0202, true, false) := by decide

theorem test_ld_dt : after (State.reset.setDt 0x20) 0xF307 (·.getV 3) = some 0x20 := by decide

theorem test_set_dt : after (State.reset.setV 0 3) 0xF015 (·.dt) = some 3 := by decide

theorem test_set_st : after (State.reset.setV 1 2) 0xF118 (fun t => (t.st, t.outputs)) = some (2, []) := by decide

theorem test_tick : ((tick ((State.reset.setDt 1).setSt 3)).dt, (tick ((State.reset.setDt 1).setSt 3)).st,
    (tick ((State.reset.setDt 1).setSt 3)).outputs) = (0, 2, [.tone]) := by decide

theorem test_tick_at_zero : tick State.reset = State.reset := by decide

theorem test_press_release : ((press 7 State.reset).isPressed 7, (press 7 State.reset).lastKey,
    (release 7 (press 7 State.reset)).isPressed 7, (release 7 (press 7 State.reset)).lastKey) =
    (true, 7, false, 7) := by decide

/-! ## Fetch and the unrecognized word (section 2.6) -/

/-- The second byte of the word at 0xFFF is the byte at 0 (R54). -/
theorem test_fetch_wraps : after (State.reset.setPc 0x0FFF) 0x6A3E (fun t => (t.getV 10, t.pc, t.mem.read 0)) =
    some (0x3E, 0x1001, 0x3E) := by decide

/-- A word at an odd address is fetched there (R58). -/
theorem test_fetch_odd : after (State.reset.setPc 0x0203) 0x612A (fun t => (t.getV 1, t.pc, t.outputs)) =
    some (0x2A, 0x0205, []) := by decide

/-- With nothing placed, the word at 0x200 is 0x0000. -/
theorem test_unrecognized : nextOf (step State.reset) =
    some { State.reset with pc := 0x0202, outputs := [.diag 0x0000 0x0200] } := by decide

theorem test_halted : nextOf (step (State.reset.hardFault .stackUnderflow 0x00EE)) =
    some (State.reset.hardFault .stackUnderflow 0x00EE) := by decide

/-! ## Reset -/

/-- `State.reset` is what `reset` makes of an empty image and the default arguments. -/
theorem test_reset_is_boot : resetTo defaultConfig (some []) none = (some State.reset, .accepted) := by decide

/-- The image lies from 0x200 (R51); glyph 15 ends at 79 (R18). -/
theorem test_reset_memory : (bootMemory defaultConfig [0x12, 0x34]).readBytes 0x1FF 4 = [0x00, 0x12, 0x34, 0x00] ∧
    (bootMemory defaultConfig []).readBytes 75 6 = [0xF0, 0x80, 0xF0, 0x80, 0x80, 0x00] := by decide

/-! ## Witnesses: the hypotheses of the statements, met at the boundary values of their clauses -/

/-- A core with a word placed at `pc`. -/
def placed (s : State) (w : Nat) : State := s.withFetchWord 16 w

/-- A core that a return on an empty stack has stopped. -/
def stopped : State := (placed State.reset 0x00EE).hardFault .stackUnderflow 0x00EE

theorem witness_DecodeOfEncode : WellFormed (.jpx 2 0x2F0) ∧ WellFormed (.jpx 15 0xFFF) ∧ WellFormed (.drw 15 15 15) := by
  decide

theorem witness_EncodeOfDecode : decodeWord 0xB2F0 = .ok (.jpx 2 0x2F0) ∧ decodeWord 0x00E0 = .ok .cls ∧
    decodeWord 0xFF65 = .ok (.loadRegs 15) := by decide

/-- A recognized and an unrecognized word. -/
theorem witness_EveryWordSelectsItsOwnRow :
    (opcodeMap.filter fun r => r.selects 0x8124).map (·.pattern) = ["8xy4"] ∧
    (opcodeMap.filter fun r => r.selects 0x8128).map (·.pattern) = [] := by decide

/-- A word of each class, at the edge of the class. -/
theorem witness_UnrecognizedWordsAreTheSixClasses : decodeWord 0x0FFF = .error .op0 ∧
    decodeWord 0x500F = .error .op5 ∧ decodeWord 0x800F = .error .op8 ∧ decodeWord 0x9001 = .error .op9 ∧
    decodeWord 0xE09D = .error .opE ∧ decodeWord 0xF066 = .error .opF := by decide

/-- The two bytes at the edge of the address space. -/
theorem witness_StepRunsTheDecodedInstruction :
    Running (placed (State.reset.setPc 0x0FFF) 0x6A3E) ∧
    decodeWord ((placed (State.reset.setPc 0x0FFF) 0x6A3E).mem.read (0x0FFF % 4096) ++
      (placed (State.reset.setPc 0x0FFF) 0x6A3E).mem.read ((0x0FFF + 1) % 4096)) = .ok (.ldImm 10 0x3E) := by decide

theorem witness_PlacedInstructionRuns : stopped.mem.wf = true ∧ decodeTableWord 16 0x6A3E = some (.ldImm 10 0x3E) := by
  decide

theorem witness_UnrecognizedWordIsReportedAndSkipped :
    Running State.reset ∧ decodeWord State.reset.fetchWord = .error .op0 := by decide

theorem witness_HaltedCoreIgnoresAllButReset : stopped.halted = true := by decide

/-- A call that overflows, one that does not, a return that underflows, and one that does not. -/
theorem witness_OnlyStackFaultsHalt :
    Running (placed (deep 16) 0x2200) ∧ decodeWord (placed (deep 16) 0x2200).fetchWord = .ok (.call 0x200) ∧
    Running (placed (deep 15) 0x2200) ∧ decodeWord (placed (deep 15) 0x2200).fetchWord = .ok (.call 0x200) ∧
    Running (placed (deep 0) 0x00EE) ∧ decodeWord (placed (deep 0) 0x00EE).fetchWord = .ok .ret ∧
    Running (placed (deep 1) 0x00EE) ∧ decodeWord (placed (deep 1) 0x00EE).fetchWord = .ok .ret := by decide

/-- A step with no event and one with an event. -/
theorem witness_StepEmitsAtMostOneEvent :
    (∃ t, step (placed State.reset 0x1200) = .next t ∧ t.outputs = []) ∧
    ∃ t, step State.reset = .next t ∧ t.outputs = [.diag 0x0000 0x0200] :=
  ⟨⟨_, rfl, by decide⟩, ⟨_, rfl, by decide⟩⟩

/-- The last call with room, and the first without. -/
theorem witness_CallPushesAndJumpsOrFaults : (deep 0).sp.val < 16 ∧ (deep 15).sp.val < 16 ∧ (deep 16).sp.val = 16 := by
  decide

/-- The first and the last level that can return, and the level that cannot. -/
theorem witness_ReturnPopsOrFaults : (deep 1).sp.val = 0 + 1 ∧ (deep 16).sp.val = 15 + 1 ∧ (deep 0).sp.val = 0 := by
  decide

theorem witness_HardFaultEntryRecordsTheInstruction :
    (Running (placed (deep 16) 0x2200) ∧ decodeWord (placed (deep 16) 0x2200).fetchWord = .ok (.call 0x200) ∧
      (placed (deep 16) 0x2200).sp = 16) ∧
    (Running (placed (deep 0) 0x00EE) ∧ decodeWord (placed (deep 0) 0x00EE).fetchWord = .ok .ret ∧
      (placed (deep 0) 0x00EE).sp = 0) := by decide

/-- Each of the four conditions true, each false, and the two sorts of unrecognized word at both ends of `n`. -/
theorem witness_RegisterSkips :
    (two 1 1).getV 1 = 1 ∧ (two 1 2).getV 1 ≠ 0 ∧ (two 1 1).getV 1 = (two 1 1).getV 2 ∧
    (two 1 2).getV 1 ≠ (two 1 2).getV 2 ∧ (1 : Fin 16) ≠ 0 ∧ (15 : Fin 16) ≠ 0 := by decide

/-- A core whose subroutine at 0x300 calls one at 0x304, which returns. -/
def nested : State := State.reset.setMem ((State.reset.mem.writeBytes 0x300 [0x23, 0x04]).writeBytes 0x304 [0x00, 0xEE])

/-- The core after the call of the subroutine at 0x300. -/
def nestedCall : State := { nested with pc := 0x0300, sp := 1, stack := nested.stack.set 0 0x0202 }

/-- That core after the inner call, and after the inner return. -/
def nestedInner : State := { nestedCall with pc := 0x0304, sp := 2, stack := nestedCall.stack.set 1 0x0302 }

def nestedOuter : State := { nestedInner with pc := 0x0302, sp := 1 }

/-- A call that faults and the deepest that does not; the run of no transition after it, and a run that calls and
returns once more. -/
theorem witness_ReturnUndoesItsCall :
    (Running (deep 16) ∧ ∃ t, exec (.call 0x300) (deep 16) = .next t) ∧
    (Running (deep 15) ∧ ∃ t, exec (.call 0x300) (deep 15) = .next t) ∧
    (∃ t, (deep 15).sp.val < 16 ∧ exec (.call 0x300) (deep 15) = .next t ∧
      RunAtDepth defaultConfig ((deep 15).sp.val + 1) t t) ∧
    nested.sp.val < 16 ∧ exec (.call 0x300) nested = .next nestedCall ∧
      RunAtDepth defaultConfig (nested.sp.val + 1) nestedCall nestedOuter ∧ nestedOuter.sp = nestedCall.sp := by
  refine ⟨⟨rfl, _, rfl⟩, ⟨rfl, _, rfl⟩, ⟨_, by decide, rfl, .start (by decide)⟩, by decide, rfl, ?_, by decide⟩
  exact .next .step (.next (u := nestedInner) .step (.start (by decide)) rfl rfl (by decide)) rfl rfl (by decide)

/-- A sequential and a skipping instruction, from the last even `pc`. -/
theorem witness_SequentialStepsKeepPcEven :
    isTransfer .cls = false ∧ (State.reset.setPc 0xFFFE).pc.toNat % 2 = 0 ∧
    (∃ t, exec .cls (State.reset.setPc 0xFFFE) = .next t) ∧
    isTransfer (.seImm 0 0) = false ∧ ∃ t, exec (.seImm 0 0) (State.reset.setPc 0xFFFE) = .next t :=
  ⟨rfl, by decide, ⟨_, rfl⟩, rfl, ⟨_, rfl⟩⟩

/-- Sums at the edge of the carry, and a register that is not VF. -/
theorem witness_AddSetsCarry : ¬ 255 < ((two 0x80 0x7F).getV 1).toNat + ((two 0x80 0x7F).getV 2).toNat ∧
    255 < ((two 0xFF 0x01).getV 1).toNat + ((two 0xFF 0x01).getV 2).toNat ∧ (14 : Reg) ≠ 15 := by decide

theorem witness_SubtractionsSetNoBorrow : ¬ ((two 5 5).getV 2).toNat < ((two 5 5).getV 1).toNat ∧
    ((two 5 4).getV 2).toNat < ((two 5 4).getV 1).toNat ∧ ((two 4 5).getV 1).toNat < ((two 4 5).getV 2).toNat ∧
    (14 : Reg) ≠ 15 := by decide

theorem witness_ShiftsSetTheBitShiftedOut : (0 : Reg) ≠ 15 ∧ (14 : Reg) ≠ 15 := by decide

/-- A mask with a bit clear. -/
theorem witness_RandomByteIsMasked : (0x0F : Byte).getLsbD 4 = false ∧ (0x00 : Byte).getLsbD 0 = false := by decide

theorem witness_DecimalDigitsStored : (State.reset.setI 0x0FFE).mem.wf = true := by decide

theorem witness_RegistersStored : (State.reset.setI 0x0FFF).mem.wf = true ∧ (0 : Reg) ≤ 0 ∧ (15 : Reg) ≤ 15 := by
  decide

theorem witness_RegistersLoaded : (0 : Reg) ≤ 0 ∧ (15 : Reg) ≤ 15 := by decide

/-- The stored byte is the first, and the second, of the next instruction. -/
theorem witness_StoreIsSeenByTheNextFetch :
    State.reset.mem.wf = true ∧
    (∃ t, exec (.storeRegs 0) (State.reset.setI 0x0202) = .next t ∧ t.pc.toNat % 4096 = (0x0202 + 0) % 4096) ∧
    ∃ t, exec (.storeRegs 15) (State.reset.setI 0x01F4) = .next t ∧ (t.pc.toNat + 1) % 4096 = (0x01F4 + 15) % 4096 :=
  ⟨by decide, ⟨_, rfl, by decide⟩, ⟨_, rfl, by decide⟩⟩

/-- A sprite of no bytes and one of bytes. -/
theorem witness_DrawCompletesWithItsFrame : (0 : Fin 16) = 0 ∧ (15 : Fin 16) ≠ 0 := by decide

/-- A pixel under the sprite at the wrapped corner, and one beside it. -/
theorem witness_DrawInvertsThePixelsItCovers :
    ((withBytes 0x0300 [0xC0]).setV 0 63).fb.wf = true ∧ RoomForSprite ((withBytes 0x0300 [0xC0]).setV 0 63) ∧
    Covers ((withBytes 0x0300 [0xC0]).setV 0 63) 0 1 1 0 0 ∧
    ¬ Covers ((withBytes 0x0300 [0xC0]).setV 0 63) 0 1 1 31 63 := by
  refine ⟨by decide, by decide, ⟨0, by decide, 1, by decide, by decide⟩, ?_⟩
  unfold Covers
  decide

/-- A framebuffer of one pixel: the two 1 bits invert it twice, and the second finds it on. -/
theorem witness_DrawInvertsOncePerSpriteBit :
    ((withBytes 0x0300 [0xC0]).setFb (Grid.blank 1 1)).fb.wf = true ∧
    visits ((withBytes 0x0300 [0xC0]).setFb (Grid.blank 1 1)) 0 0 1 = [(0, 0), (0, 0)] ∧
    after ((withBytes 0x0300 [0xC0]).setFb (Grid.blank 1 1)) 0xD001 (fun t => (on t, t.getV 15)) = some ([], 1) := by
  decide

theorem witness_DrawingTwiceRestoresTheFramebuffer :
    (0 : Reg) ≠ 15 ∧ (14 : Reg) ≠ 15 ∧ State.reset.fb.wf = true ∧ RoomForSprite State.reset := by decide

/-- The smallest framebuffer with room for every sprite. -/
theorem witness_NoCollisionAfterClear :
    (State.reset.setFb (Grid.blank 15 8)).fb.wf = true ∧ RoomForSprite (State.reset.setFb (Grid.blank 15 8)) := by
  decide

/-- The first and the last pixel. -/
theorem witness_FramebufferReadGivesEveryPixel :
    0 < State.reset.fb.rows ∧ 0 < State.reset.fb.cols ∧ 31 < State.reset.fb.rows ∧ 63 < State.reset.fb.cols := by decide

theorem witness_KeySkips : (press 15 (State.reset.setV 3 0xFF)).keys[((press 15 (State.reset.setV 3 0xFF)).getV 3).toNat
    % 16]'(by decide) = true ∧ State.reset.keys[(State.reset.getV 3).toNat % 16]'(by decide) = false := by decide

theorem witness_KeyWaitPolls :
    (∃ k : Key, (press 15 State.reset).isPressed k = true) ∧ ∀ k : Key, State.reset.isPressed k = false := by decide

theorem witness_TickDecaysBothTimers :
    Running (State.reset.setSt 1) ∧ (State.reset.setSt 1).st ≠ 0 ∧ Running State.reset ∧ State.reset.st = 0 := by decide

theorem witness_TicksEmitOneTonePerCount : Running (State.reset.setSt 255) := by decide

theorem witness_PressAndRelease : Running State.reset := by decide

theorem witness_OnlyDestinationRegistersChange :
    (∃ t, exec (.addReg 1 2) State.reset = .next t) ∧ writesReg (.addReg 1 2) 14 = false :=
  ⟨⟨_, rfl⟩, by decide⟩

/-- Each piece of state the statement names is changed by some instruction. -/
theorem witness_OnlyNamedInstructionsWrite :
    (∃ t, exec (.ldI 0x123) State.reset = .next t ∧ t.i ≠ State.reset.i) ∧
    (∃ t, exec (.call 0x123) State.reset = .next t ∧ t.sp ≠ State.reset.sp ∧ t.stack ≠ State.reset.stack) ∧
    (∃ t, exec (.storeRegs 0) State.reset = .next t ∧ t.mem ≠ State.reset.mem) ∧
    (∃ t, exec (.ldDtVx 1) (two 1 0) = .next t ∧ t.dt ≠ (two 1 0).dt) ∧
    (∃ t, exec (.ldStVx 1) (two 1 0) = .next t ∧ t.st ≠ (two 1 0).st) ∧
    ∃ t, exec (.drw 0 0 1) State.reset = .next t ∧ t.fb ≠ State.reset.fb :=
  ⟨⟨_, rfl, by decide⟩, ⟨_, rfl, by decide, by decide⟩, ⟨_, rfl, by decide⟩, ⟨_, rfl, by decide⟩,
    ⟨_, rfl, by decide⟩, ⟨_, rfl, by decide⟩⟩

/-- The empty image and the longest. -/
theorem witness_ResetSetsEveryRegister :
    ([] : List Byte).length ≤ 3584 ∧ (List.replicate 3584 (0xFF : Byte)).length ≤ 3584 :=
  ⟨by decide, List.length_replicate.le⟩

/-- The last byte of the longest image, and the last zero after the empty one. -/
theorem witness_ResetFillsMemory :
    3583 < (List.replicate 3584 (0xFF : Byte)).length ∧ 0x200 + ([] : List Byte).length ≤ 4095 :=
  ⟨List.length_replicate.symm ▸ by decide, by decide⟩

/-- The shortest image that is refused, and one that could not be read. -/
theorem witness_ResetRefusesWithoutEffect : (none : Option (List Byte)) = none ∧
    ∃ bytes, some (List.replicate 3585 (0xFF : Byte)) = some bytes ∧ 3584 < bytes.length :=
  ⟨rfl, _, rfl, List.length_replicate.symm ▸ by decide⟩

theorem witness_UnstartedCoreIsStuck : Input.step.isReset = false ∧ Input.tick.isReset = false ∧
    (Input.press 0).isReset = false ∧ (Input.release 0).isReset = false := by decide

/-- A running and a stopped state with the invariant, and a step of each. -/
theorem witness_StepKeepsTheInvariant :
    (CoreInv State.reset ∧ ∃ t, step State.reset = .next t) ∧ CoreInv stopped ∧ ∃ t, step stopped = .next t :=
  ⟨⟨⟨by decide, by decide, Or.inl (by decide)⟩, ⟨_, rfl⟩⟩, ⟨by decide, by decide, Or.inr (by decide)⟩, ⟨_, rfl⟩⟩

/-- The core after its first reset, and after a step from there. -/
theorem witness_ReachableCoresHaveTheInvariant :
    defaultConfig.WellFormed ∧ Reachable defaultConfig (some State.reset) ∧
    ∃ t, Reachable defaultConfig (some t) ∧ t ≠ State.reset := by
  have h : Reachable defaultConfig (some State.reset) :=
    .next (.reset (some [])) .unstarted (by rw [transition, test_reset_is_boot])
  exact ⟨by decide, h, _, .next (.press 3) h rfl, by decide⟩

/-- The last digit stored is the first, and the first digit the second, byte of the next instruction. -/
theorem witness_StoredDigitIsSeenByTheNextFetch :
    State.reset.mem.wf = true ∧
    (∃ t, exec (.ldBcd 0) (State.reset.setI 0x0200) = .next t ∧ t.pc.toNat % 4096 = (0x0200 + 2) % 4096) ∧
    ∃ t, exec (.ldBcd 0) (State.reset.setI 0x0203) = .next t ∧ (t.pc.toNat + 1) % 4096 = (0x0203 + 0) % 4096 :=
  ⟨by decide, ⟨_, rfl, by decide⟩, ⟨_, rfl, by decide⟩⟩

/-- Both coordinates in VF: a draw that leaves VF as it was, and one whose coordinates are not VF. -/
theorem witness_DrawingAgainAtTheSameCoordinates :
    State.reset.fb.wf = true ∧ RoomForSprite State.reset ∧
    (∃ t, exec (.drw 15 15 5) State.reset = .next t ∧ t.getV 15 = State.reset.getV 15) ∧
    ∃ t, exec (.drw 0 14 5) State.reset = .next t ∧ t.getV 0 = State.reset.getV 0 ∧ t.getV 14 = State.reset.getV 14 :=
  ⟨by decide, by decide, ⟨_, rfl, by decide⟩, ⟨_, rfl, by decide, by decide⟩⟩

/-- A core not yet started and its first reset, and each other transition of a started core. -/
theorem witness_EveryTransitionKeepsTheInvariant :
    defaultConfig.WellFormed ∧ HostInv defaultConfig none ∧
    transition defaultConfig (.reset (some [])) none = .next (some State.reset) ∧
    HostInv defaultConfig (some State.reset) ∧
    (∃ m, transition defaultConfig .step (some State.reset) = .next m) ∧
    (∃ m, transition defaultConfig .tick (some State.reset) = .next m) ∧
    (∃ m, transition defaultConfig (.press 3) (some State.reset) = .next m) ∧
    (∃ m, transition defaultConfig (.release 3) (some State.reset) = .next m) ∧
    ∃ m, transition defaultConfig (.reset none) (some State.reset) = .next m := by
  refine ⟨by decide, (fun s h => by cases h), by rw [transition, test_reset_is_boot], ?_, ⟨_, rfl⟩, ⟨_, rfl⟩, ⟨_, rfl⟩,
    ⟨_, rfl⟩, ⟨_, rfl⟩⟩
  intro s h
  cases h
  exact ⟨⟨by decide, by decide, Or.inl (by decide)⟩, rfl, rfl⟩

end Sys2Proof.Tests
end

section
/-!
SUPPORT. What calls, returns and the agents beside the step can do, which words decode to a call or a return, and
that every transition keeps the invariant.
-/

namespace Sys2Proof

/-! ## The words of calls and returns -/

/-- Only `op` = 0 decodes to a return, and only `op` = 2 to a call (spec 30_encoding.md R86). -/
theorem decodeWord_call_ret_cases {w : Word} {ins : Instr} (h : decodeWord w = .ok ins) :
    decodeFixed w = .ok ins ∨ (fieldOp w = 0x2 ∧ ins = .call (fieldNNN w)) ∨
      (ins ≠ .ret ∧ ∀ nnn, ins ≠ .call nnn) := by
  unfold decodeWord decodeOp at h
  split at h
  case h_1 => exact .inl h
  case h_3 hop => exact .inr (.inl ⟨hop, (Except.ok.inj h).symm⟩)
  case h_6 | h_10 => split_ifs at h; cases h; simp
  case h_9 | h_15 | h_16 =>
    simp only [decode8, decodeE, decodeF] at h
    split_ifs at h <;> cases h <;> simp
  all_goals cases h; simp

theorem decodeFixed_eq_ok {w : Word} {ins : Instr} (h : decodeFixed w = .ok ins) :
    ins = .cls ∨ (ins = .ret ∧ w = 0x00EE) := by
  unfold decodeFixed at h
  split_ifs at h with hcls hret <;> cases h
  · exact .inl rfl
  · exact .inr ⟨rfl, hret⟩

/-- A word that decodes to a return is 0x00EE. -/
theorem eq_of_decodeWord_ret {w : Word} (h : decodeWord w = .ok .ret) : w = 0x00EE := by
  rcases decodeWord_call_ret_cases h with hf | ⟨-, hne⟩ | ⟨hne, -⟩
  · rcases decodeFixed_eq_ok hf with hne | ⟨-, hw⟩
    · cases hne
    · exact hw
  · cases hne
  · exact absurd rfl hne

/-- A word that decodes to a call is `op` 2 and the address. -/
theorem eq_of_decodeWord_call {w : Word} {nnn : Addr12} (h : decodeWord w = .ok (.call nnn)) :
    w = 0x2#4 ++ nnn := by
  rcases decodeWord_call_ret_cases h with hf | ⟨hop, hins⟩ | ⟨-, hne⟩
  · rcases decodeFixed_eq_ok hf with hne | ⟨hne, -⟩ <;> cases hne
  · cases hins
    have hw := word_eq_NNN w
    rw [hop] at hw
    exact hw.symm
  · exact absurd rfl (hne nnn)

end Sys2Proof

namespace Sys2Proof.Machine

/-! ## A step, by its case -/

theorem step_of_halted {s : State} (h : s.halted = true) : step s = .next s := by simp [step, h]

theorem step_of_decode {s : State} {ins : Instr} (hrun : Running s) (hd : decodeWord s.fetchWord = .ok ins) :
    step s = exec ins s := by
  simp [step, hrun, hd]

theorem step_of_unrecognized {s : State} {why : Unrecognized} (hrun : Running s)
    (hd : decodeWord s.fetchWord = .error why) : step s = .next (s.diagnose s.fetchWord) := by
  simp [step, hrun, hd]

/-! ## The invariant through an instruction and a step -/

/-- While a core runs its fault record is all zero. -/
theorem FaultRecordOk.zero_of_running {s : State} (h : FaultRecordOk s) (hrun : Running s) :
    s.faultCause = .none ∧ s.faultInstr = 0 ∧ s.faultPc = 0 := by
  rcases h with ⟨-, hzero⟩ | ⟨hhalt, -⟩
  · exact hzero
  · rw [hrun] at hhalt
    cases hhalt

/-- A fault of the fetched call on a full stack leaves a record that agrees with the state (spec R194). -/
theorem FaultRecordOk.of_overflow {s : State} {nnn : Addr12} (hw : s.fetchWord = 0x2#4 ++ nnn) (hsp : s.sp = 16) :
    FaultRecordOk (s.hardFault .stackOverflow (0x2#4 ++ nnn)) :=
  .inr ⟨rfl, rfl, hw.symm, .inl ⟨rfl, hsp, fieldOp_NNN 0x2 nnn⟩⟩

/-- A fault of the fetched return on an empty stack leaves a record that agrees with the state (spec R194). -/
theorem FaultRecordOk.of_underflow {s : State} (hw : s.fetchWord = 0x00EE) (hsp : s.sp = 0) :
    FaultRecordOk (s.hardFault .stackUnderflow 0x00EE) :=
  .inr ⟨rfl, rfl, hw.symm, .inr ⟨rfl, hsp, rfl⟩⟩

/-- The fetched instruction of a running core keeps the invariant and the sizes of the framebuffer. -/
theorem CoreInv.exec {s t : State} {ins : Instr} (h : CoreInv s) (hrun : Running s)
    (hd : decodeWord s.fetchWord = .ok ins) (he : Machine.exec ins s = .next t) :
    CoreInv t ∧ t.fb.rows = s.fb.rows ∧ t.fb.cols = s.fb.cols := by
  obtain ⟨t', he', hcases⟩ := exec_cases ins s
  obtain rfl : t' = t := Host.Outcome.next.inj (he'.symm.trans he)
  rcases hcases with ⟨nnn, rfl, hsp, rfl⟩ | ⟨rfl, hsp, rfl⟩ |
    ⟨-, -, hhalt, hcause, hinstr, hpc, -, hmem, hfb, hrows, hcols⟩
  · exact ⟨⟨h.memWf, h.fbWf, .of_overflow (eq_of_decodeWord_call hd) hsp⟩, rfl, rfl⟩
  · exact ⟨⟨h.memWf, h.fbWf, .of_underflow (eq_of_decodeWord_ret hd) hsp⟩, rfl, rfl⟩
  · obtain ⟨hcause0, hinstr0, hpc0⟩ := h.faultOk.zero_of_running hrun
    have hrecord : FaultRecordOk t' :=
      .inl ⟨hhalt.trans hrun, hcause.trans hcause0, hinstr.trans hinstr0, hpc.trans hpc0⟩
    exact ⟨⟨hmem h.memWf, hfb h.fbWf, hrecord⟩, hrows, hcols⟩

/-- A step keeps the invariant and the sizes of the framebuffer. -/
theorem CoreInv.step {s t : State} (h : CoreInv s) (hs : Machine.step s = .next t) :
    CoreInv t ∧ t.fb.rows = s.fb.rows ∧ t.fb.cols = s.fb.cols := by
  rcases step_cases s with ⟨-, heq⟩ | ⟨hrun, ins, hd, heq⟩ | ⟨hrun, why, -, heq⟩
  · cases heq.symm.trans hs
    exact ⟨h, rfl, rfl⟩
  · exact h.exec hrun hd (heq.symm.trans hs)
  · cases heq.symm.trans hs
    exact ⟨⟨h.memWf, h.fbWf, .inl ⟨hrun, h.faultOk.zero_of_running hrun⟩⟩, rfl, rfl⟩

/-! ## The other agents -/

theorem State.decayDt_eq_update (s : State) : ∃ dt, s.decayDt = { s with dt := dt } := by
  rcases s.decayDt_cases with ⟨-, heq⟩ | ⟨-, heq⟩
  · exact ⟨s.dt, heq⟩
  · exact ⟨s.dt - 1, heq⟩

theorem State.decaySt_eq_update (s : State) :
    ∃ st outputs, s.decaySt = { s with st := st, outputs := outputs } := by
  rcases s.decaySt_cases with ⟨-, heq⟩ | ⟨-, heq⟩
  · exact ⟨s.st, s.outputs, heq⟩
  · exact ⟨s.st - 1, .tone :: s.outputs, heq⟩

/-- A tick touches the timers and the history of events only (spec R211). -/
theorem tick_eq_update (s : State) :
    ∃ dt st outputs, tick s = { s with dt := dt, st := st, outputs := outputs } := by
  rcases Bool.eq_false_or_eq_true s.halted with hhalt | hrun
  · exact ⟨s.dt, s.st, s.outputs, tick_eq_of_halted hhalt⟩
  · obtain ⟨dt, hdt⟩ := s.decayDt_eq_update
    obtain ⟨st, outputs, hst⟩ := s.decayDt.decaySt_eq_update
    exact ⟨dt, st, outputs, by rw [tick_eq hrun, hst, hdt]⟩

theorem press_eq_of_halted {s : State} (h : s.halted = true) (k : Key) : press k s = s := by simp [press, h]

theorem release_eq_of_halted {s : State} (h : s.halted = true) (k : Key) : release k s = s := by simp [release, h]

/-- A press touches the keys and `last_key` only (spec R215). -/
theorem press_eq_update (k : Key) (s : State) :
    ∃ keys lastKey, press k s = { s with keys := keys, lastKey := lastKey } := by
  rcases Bool.eq_false_or_eq_true s.halted with hhalt | hrun
  · exact ⟨s.keys, s.lastKey, press_eq_of_halted hhalt k⟩
  · exact ⟨s.keys.set k true, k, by simp [press, hrun]⟩

/-- A release touches the keys only (spec R216). -/
theorem release_eq_update (k : Key) (s : State) : ∃ keys, release k s = { s with keys := keys } := by
  rcases Bool.eq_false_or_eq_true s.halted with hhalt | hrun
  · exact ⟨s.keys, release_eq_of_halted hhalt k⟩
  · exact ⟨s.keys.set k false, by simp [release, hrun]⟩

/-- The invariant says nothing of the timers, the keys, `last_key` and the events. -/
theorem CoreInv.of_update {s : State} (h : CoreInv s) (dt st : Byte) (keys : Vector Bool 16) (lastKey : Key)
    (outputs : List Output) :
    CoreInv { s with dt := dt, st := st, keys := keys, lastKey := lastKey, outputs := outputs } :=
  ⟨h.memWf, h.fbWf, h.faultOk⟩

/-- A core started by an accepted reset has the invariant. -/
theorem CoreInv.boot {cfg : Config} (hcfg : cfg.WellFormed) (image : List Byte) (draws : Nat)
    (outputs : List Output) : CoreInv (State.boot cfg image draws outputs) :=
  ⟨wf_bootMemory cfg image, Grid.wf_blank hcfg.2 hcfg.1, .inl ⟨rfl, rfl, rfl, rfl⟩⟩

/-! ## The core as the host drives it -/

variable {cfg : Config}

theorem hostInv_none : HostInv cfg none := fun _ h => nomatch h

theorem hostInv_some {s : State} :
    HostInv cfg (some s) ↔ CoreInv s ∧ s.fb.rows = cfg.fbH ∧ s.fb.cols = cfg.fbW :=
  ⟨fun h => h s rfl, fun h _ he => Option.some.inj he ▸ h⟩

/-- A reset, accepted or refused, keeps the invariant of the host's core (spec R230, R232). -/
theorem HostInv.resetTo (hcfg : cfg.WellFormed) {m : Option State} (h : HostInv cfg m)
    (image : Option (List Byte)) : HostInv cfg (Machine.resetTo cfg image m).1 := by
  rcases resetTo_cases cfg image m with ⟨bytes, draws, outputs, -, -, heq⟩ | heq <;> rw [heq]
  · exact hostInv_some.mpr ⟨.boot hcfg bytes draws outputs, rfl, rfl⟩
  · exact h

/-- A step that answers a next core answers the next state of the step. -/
theorem started_eq_next {r : Result} {m : Option State} (h : started r = .next m) :
    ∃ t, r = .next t ∧ m = some t := by
  cases r with
  | next t => exact ⟨t, rfl, (Host.Outcome.next.inj h).symm⟩
  | fault f => cases h
  | refused f => cases h

/-- Every transition of a started core but reset keeps the invariant and the sizes (spec R44). -/
theorem CoreInv.transition {s : State} (h : CoreInv s) {e : Input} (he : e.isReset = false) {m : Option State}
    (ht : Machine.transition cfg e (some s) = .next m) :
    ∃ t, m = some t ∧ CoreInv t ∧ t.fb.rows = s.fb.rows ∧ t.fb.cols = s.fb.cols := by
  cases e with
  | reset image => cases he
  | step =>
    obtain ⟨t, hstep, rfl⟩ := started_eq_next ht
    exact ⟨t, rfl, h.step hstep⟩
  | tick =>
    obtain ⟨dt, st, outputs, heq⟩ := tick_eq_update s
    cases ht
    exact ⟨_, rfl, heq ▸ ⟨h.of_update dt st s.keys s.lastKey outputs, rfl, rfl⟩⟩
  | press k =>
    obtain ⟨keys, lastKey, heq⟩ := press_eq_update k s
    cases ht
    exact ⟨_, rfl, heq ▸ ⟨h.of_update s.dt s.st keys lastKey s.outputs, rfl, rfl⟩⟩
  | release k =>
    obtain ⟨keys, heq⟩ := release_eq_update k s
    cases ht
    exact ⟨_, rfl, heq ▸ ⟨h.of_update s.dt s.st keys s.lastKey s.outputs, rfl, rfl⟩⟩

theorem Input.reset_or_other (e : Input) : (∃ image, e = .reset image) ∨ e.isReset = false := by
  cases e with
  | reset image => exact .inl ⟨image, rfl⟩
  | _ => exact .inr rfl

/-- Nothing but reset answers a next core where none has been started (spec U15). -/
theorem transition_none_ne_next {e : Input} (he : e.isReset = false) (m : Option State) :
    transition cfg e none ≠ .next m := by
  cases e with
  | reset image => cases he
  | _ => exact nofun

/-- Every transition of the host keeps its invariant. -/
theorem HostInv.transition (hcfg : cfg.WellFormed) {e : Input} {m m' : Option State} (h : HostInv cfg m)
    (ht : Machine.transition cfg e m = .next m') : HostInv cfg m' := by
  rcases e.reset_or_other with ⟨image, rfl⟩ | he
  · cases ht
    exact h.resetTo hcfg image
  · cases m with
    | none => exact absurd ht (transition_none_ne_next he m')
    | some s =>
      obtain ⟨hs, hrows, hcols⟩ := hostInv_some.mp h
      obtain ⟨t, rfl, hinv, hrows', hcols'⟩ := hs.transition he ht
      exact hostInv_some.mpr ⟨hinv, hrows'.trans hrows, hcols'.trans hcols⟩

/-- Whatever the host does, its invariant holds. -/
theorem Reachable.hostInv (hcfg : cfg.WellFormed) {m : Option State} (h : Reachable cfg m) : HostInv cfg m := by
  induction h with
  | unstarted => exact hostInv_none
  | next e _ ht ih => exact ih.transition hcfg ht

end Sys2Proof.Machine

namespace Sys2Proof.Proofs

open Sys2Proof.Machine

/-- Settles O56, by the cases of the input: a reset, and each transition of a started core. -/
theorem everyTransitionKeepsTheInvariant : Obligations.EveryTransitionKeepsTheInvariant := by
  unfold Obligations.EveryTransitionKeepsTheInvariant
  exact fun _ _ _ _ hcfg h ht => h.transition hcfg ht

/-- Settles O53, by induction on the transitions that reach the core. -/
theorem reachableCoresHaveTheInvariant : Obligations.ReachableCoresHaveTheInvariant := by
  unfold Obligations.ReachableCoresHaveTheInvariant
  exact fun _ _ hcfg h => hostInv_some.mp (h.hostInv hcfg)

/-- Settles O9: each agent but reset tests for a running core. -/
theorem haltedCoreIgnoresAllButReset : Obligations.HaltedCoreIgnoresAllButReset := by
  unfold Obligations.HaltedCoreIgnoresAllButReset
  intro s hhalt
  refine ⟨step_of_halted hhalt, tick_eq_of_halted hhalt, fun k => ?_⟩
  exact ⟨press_eq_of_halted hhalt k, release_eq_of_halted hhalt k⟩

end Sys2Proof.Proofs
end

section
/-!
SUPPORT. What an instruction leaves alone: the registers and other pieces it does not write, the evenness of `pc`,
and the sound timer, which it does not read; and the renderer's read of the framebuffer.
-/

namespace Sys2Proof.Machine

/-! ## Call and return -/

/-- What a call can do (spec R103): push, count and jump, or enter a hard fault. -/
theorem execCall_cases (nnn : Addr12) (s : State) :
    (∃ stack sp, exec (.call nnn) s = .next { s with pc := zext16 nnn, stack := stack, sp := sp }) ∨
    exec (.call nnn) s = .next (s.hardFault .stackOverflow (0x2#4 ++ nnn)) := by
  rcases sp_full_or_room s with hfull | hroom
  · exact .inr (execCall_of_full hfull nnn)
  · exact .inl ⟨_, _, execCall_of_room hroom nnn⟩

/-- What a return can do (spec R101): uncount an entry and jump, or enter a hard fault. -/
theorem execRet_cases (s : State) :
    (∃ pc sp, exec .ret s = .next { s with pc := pc, sp := sp }) ∨
    exec .ret s = .next (s.hardFault .stackUnderflow 0x00EE) := by
  rcases sp_empty_or_live s with hempty | hlive
  · exact .inr (execRet_of_empty hempty)
  · exact .inl ⟨_, _, execRet_of_live hlive⟩

/-! ## The key wait (spec R173) -/

theorem execLdVxKey_of_pressed {s : State} (h : s.anyPressed = true) (x : Reg) :
    exec (.ldVxKey x) s = .next (s.setV x (keyByte s.lastKey)).advance :=
  congrArg Host.Outcome.next (if_pos h)

theorem execLdVxKey_of_idle {s : State} (h : s.anyPressed = false) (x : Reg) : exec (.ldVxKey x) s = .next s :=
  congrArg Host.Outcome.next (if_neg (by simp [h]))

/-! ## The program counter -/

/-- An instruction that is no jump, call or return stays, advances or skips (spec R14, R83). -/
theorem pc_of_exec_of_not_transfer {ins : Instr} {s t : State} (hins : isTransfer ins = false)
    (he : exec ins s = .next t) : t.pc = s.pc ∨ t.pc = s.pc + 2 ∨ t.pc = s.pc + 4 := by
  cases ins
  case ret | jp | call | jpx => cases hins
  case seImm | sneImm | seReg | sneReg | skp | sknp =>
    cases he
    rw [State.skipIf_pc]
    split <;> simp
  case ldVxKey x =>
    cases he
    split <;> simp
  all_goals
    cases he
    exact .inr (.inl rfl)

theorem even_add {w d : Word} (hw : w.toNat % 2 = 0) (hd : d.toNat % 2 = 0) : (w + d).toNat % 2 = 0 := by
  rw [BitVec.toNat_add]
  omega

/-! ## Registers -/

theorem State.getV_setFlag_ne (s : State) {x : Reg} (h : x ≠ regVF) (c : Bool) : (s.setFlag c).getV x = s.getV x :=
  s.getV_setV_ne h.symm _

theorem State.getV_setRegs_ge (s : State) {bs : List Byte} {x : Reg} (h : bs.length ≤ x.val) :
    (s.setRegs bs).getV x = s.getV x := by
  rw [s.getV_setRegs, dif_neg (Nat.not_lt.mpr h)]

theorem ne_and_ne_of_or_beq {r x y : Reg} (h : (r == x || r == y) = false) : r ≠ x ∧ r ≠ y := by
  obtain ⟨hx, hy⟩ := Bool.or_eq_false_iff.mp h
  exact ⟨ne_of_beq_false hx, ne_of_beq_false hy⟩

/-- An instruction changes no register but those R12 says it writes. -/
theorem getV_of_exec {ins : Instr} {s t : State} {r : Reg} (he : exec ins s = .next t)
    (hr : writesReg ins r = false) : t.getV r = s.getV r := by
  cases ins
  case call nnn =>
    rcases execCall_cases nnn s with ⟨stack, sp, heq⟩ | heq <;> cases heq.symm.trans he <;> rfl
  case ret =>
    rcases execRet_cases s with ⟨pc, sp, heq⟩ | heq <;> cases heq.symm.trans he <;> rfl
  case ldVxKey x =>
    have hx : r ≠ x := ne_of_beq_false hr
    cases he
    split
    · exact s.getV_setV_ne hx.symm _
    · rfl
  case ldImm x nn | addImm x nn | ldReg x y | orReg x y | andReg x y | xorReg x y | rnd x nn | ldVxDt x =>
    have hx : r ≠ x := ne_of_beq_false hr
    cases he
    exact State.getV_setV_ne _ hx.symm _
  case addReg x y =>
    obtain ⟨hx, hf⟩ := ne_and_ne_of_or_beq hr
    cases he
    exact ((s.setV x _).getV_setFlag_ne hf _).trans (s.getV_setV_ne hx.symm _)
  case subReg x y | shr x y | subnReg x y | shl x y =>
    obtain ⟨hx, hf⟩ := ne_and_ne_of_or_beq hr
    cases he
    exact (State.getV_setV_ne _ hx.symm _).trans (s.getV_setFlag_ne hf _)
  case drw x y n =>
    have hf : r ≠ regVF := ne_of_beq_false hr
    cases he
    exact State.getV_setFlag_ne _ hf _
  case loadRegs x =>
    have hx : x.val < r.val := by simpa [writesReg] using hr
    cases he
    exact s.getV_setRegs_ge (by rw [State.length_bytesAtI]; exact hx)
  case seImm | sneImm | seReg | sneReg | skp | sknp =>
    cases he
    exact s.getV_skipIf _ r
  all_goals
    cases he
    rfl

/-! ## The sound timer -/

theorem State.setSt_skipIf (s : State) (b : Byte) (c : Bool) : (s.setSt b).skipIf c = (s.skipIf c).setSt b := by
  cases c <;> rfl

/-- What `ST` held does not bear on what an instruction does: from any other `ST` it ends as it would have, but for
`ST` (spec R19). -/
theorem exec_setSt (ins : Instr) (s : State) (b : Byte) :
    ∃ t b', exec ins s = .next t ∧ exec ins (s.setSt b) = .next (t.setSt b') := by
  cases ins
  case call nnn =>
    rcases sp_full_or_room s with hfull | hroom
    · exact ⟨_, b, execCall_of_full hfull nnn, execCall_of_full (s := s.setSt b) hfull nnn⟩
    · exact ⟨_, b, execCall_of_room hroom nnn, execCall_of_room (s := s.setSt b) hroom nnn⟩
  case ret =>
    rcases sp_empty_or_live s with hempty | hlive
    · exact ⟨_, b, execRet_of_empty hempty, execRet_of_empty (s := s.setSt b) hempty⟩
    · exact ⟨_, b, execRet_of_live hlive, execRet_of_live (s := s.setSt b) hlive⟩
  case seImm | sneImm | seReg | sneReg | skp | sknp =>
    exact ⟨_, b, rfl, congrArg Host.Outcome.next (s.setSt_skipIf b _)⟩
  case ldVxKey x =>
    rcases Bool.eq_false_or_eq_true s.anyPressed with hkey | hkey
    · exact ⟨_, b, execLdVxKey_of_pressed hkey x, execLdVxKey_of_pressed (s := s.setSt b) hkey x⟩
    · exact ⟨_, b, execLdVxKey_of_idle hkey x, execLdVxKey_of_idle (s := s.setSt b) hkey x⟩
  case ldStVx x => exact ⟨_, s.getV x, rfl, rfl⟩
  all_goals exact ⟨_, b, rfl, rfl⟩

/-- A step does not read `ST`. -/
theorem step_setSt (s : State) (b : Byte) : ∃ t b', step s = .next t ∧ step (s.setSt b) = .next (t.setSt b') := by
  rcases step_cases s with ⟨hhalt, heq⟩ | ⟨hrun, ins, hd, heq⟩ | ⟨hrun, why, hd, heq⟩
  · exact ⟨s, b, heq, step_of_halted (s := s.setSt b) hhalt⟩
  · obtain ⟨t, b', ht, hu⟩ := exec_setSt ins s b
    exact ⟨t, b', heq.trans ht, (step_of_decode (s := s.setSt b) hrun hd).trans hu⟩
  · exact ⟨_, b, heq, step_of_unrecognized (s := s.setSt b) hrun hd⟩

/-! ## The renderer -/

theorem length_fbRead (s : State) : (fbRead s).length = s.fb.rows := by simp [fbRead]

theorem getElem_fbRead (s : State) {r : Nat} (hr : r < s.fb.rows) :
    (fbRead s)[r]? = some ((List.range s.fb.cols).map fun c => s.fb.pixel r c) := by
  simp [fbRead, hr]

end Sys2Proof.Machine

namespace Sys2Proof.Proofs

open Sys2Proof.Machine

/-- Settles O19: such an instruction adds 0, 2 or 4 to `pc`. -/
theorem sequentialStepsKeepPcEven : Obligations.SequentialStepsKeepPcEven := by
  unfold Obligations.SequentialStepsKeepPcEven
  intro ins s t hins heven he
  rcases pc_of_exec_of_not_transfer hins he with hpc | hpc | hpc <;> rw [hpc]
  · exact heven
  · exact even_add heven rfl
  · exact even_add heven rfl

/-- Settles O44, by the cases of the instruction. -/
theorem onlyDestinationRegistersChange : Obligations.OnlyDestinationRegistersChange := by
  unfold Obligations.OnlyDestinationRegistersChange
  exact fun _ _ _ _ he hr => getV_of_exec he hr

/-- Settles O45, by the cases of the instruction: each update of the state leaves the pieces it does not name. -/
theorem onlyNamedInstructionsWrite : Obligations.OnlyNamedInstructionsWrite := by
  unfold Obligations.OnlyNamedInstructionsWrite
  intro ins s t he
  cases ins
  case call nnn =>
    rcases execCall_cases nnn s with ⟨stack, sp, heq⟩ | heq <;> cases heq.symm.trans he <;> simp
  case ret =>
    rcases execRet_cases s with ⟨pc, sp, heq⟩ | heq <;> cases heq.symm.trans he <;> simp
  case ldVxKey x =>
    cases he
    split <;> simp
  all_goals
    cases he
    simp

/-- Settles O46: the two steps end in states that differ in `ST` at most. -/
theorem soundTimerIsNeverRead : Obligations.SoundTimerIsNeverRead := by
  unfold Obligations.SoundTimerIsNeverRead
  intro s b
  obtain ⟨t, b', ht, hu⟩ := step_setSt s b
  exact ⟨t, t.setSt b', ht, hu, rfl⟩

/-- Settles O37: the rows of the read are those of the grid, each with every column. -/
theorem framebufferReadGivesEveryPixel : Obligations.FramebufferReadGivesEveryPixel := by
  unfold Obligations.FramebufferReadGivesEveryPixel
  refine fun s => ⟨length_fbRead s, fun r c hr hc => ?_⟩
  rw [getElem_fbRead s hr]
  simp [hc]

end Sys2Proof.Proofs
end

section
/-!
SUPPORT. Stores and the fetch after them (spec 20_memory.md R52, R64): the word placed at `pc`, and the byte of a store
that the next fetch reads; and the bytes of memory after a reset (R51).
-/

namespace Sys2Proof

/-! ## The bytes an instruction is given by -/

theorem decode_pair_eq_ok {hi lo : Byte} {rest : List Byte} {p : Instr × List Byte}
    (h : decode (hi :: lo :: rest) = .ok p) : decodeWord (wordOfBytes hi lo) = .ok p.1 := by
  rw [decode] at h
  split at h
  · next ins hd =>
    cases h
    exact hd
  · cases h

/-- An instruction in the opcode table's numbering is two bytes, high byte first, whose word decodes to it. -/
theorem decodeTableWord_eq_some {nbits w : Nat} {ins : Instr} (h : decodeTableWord nbits w = some ins) :
    ∃ hi lo, tableBytes nbits w = [hi, lo] ∧ decodeWord (wordOfBytes hi lo) = .ok ins := by
  refine ⟨_, _, rfl, ?_⟩
  rw [decodeTableWord] at h
  split at h
  · next hd =>
    cases h
    exact decode_pair_eq_ok hd
  · cases h

end Sys2Proof

namespace Sys2Proof.Machine

/-! ## The word placed where the core fetches -/

@[simp] theorem State.withFetchWord_pc (s : State) (nbits w : Nat) : (s.withFetchWord nbits w).pc = s.pc := rfl

@[simp] theorem State.withFetchWord_mem (s : State) (nbits w : Nat) :
    (s.withFetchWord nbits w).mem = s.mem.writeBytes s.pc.toNat (tableBytes nbits w) := rfl

theorem State.running_withFetchWord (s : State) (nbits w : Nat) : Running (s.withFetchWord nbits w) := rfl

/-- The fetch reads the two bytes placed at `pc` as one word, also where they wrap (spec R52, R54). -/
theorem State.fetchWord_withFetchWord {s : State} (h : s.mem.wf = true) {nbits w : Nat} {hi lo : Byte}
    (hbytes : tableBytes nbits w = [hi, lo]) : (s.withFetchWord nbits w).fetchWord = wordOfBytes hi lo := by
  have hread := Memory.read_writeBytes_at h s.pc.toNat [hi, lo] (by simp)
  rw [State.fetchWord, State.withFetchWord_pc, State.withFetchWord_mem, hbytes]
  exact congrArg₂ wordOfBytes (hread 0 Nat.zero_lt_two) (hread 1 Nat.one_lt_two)

/-! ## A store at `I`, seen by the next fetch -/

/-- A stored byte at the address of the next instruction is the high byte of the next word fetched (spec R64). -/
theorem State.fetchWord_high_of_storeAtI {s : State} (h : s.mem.wf = true) {bs : List Byte} (hlen : bs.length ≤ 4096)
    {k : Nat} (hk : k < bs.length) (ha : (s.storeAtI bs).advance.pc.toNat % 4096 = (s.i.toNat + k) % 4096) :
    (s.storeAtI bs).advance.fetchWord.extractLsb 15 8 = bs[k] := by
  rw [State.fetchWord_high, memAddr, ha]
  exact s.read_storeAtI h bs hlen k hk

/-- A stored byte at the address after it is the low byte of the next word fetched (spec R64). -/
theorem State.fetchWord_low_of_storeAtI {s : State} (h : s.mem.wf = true) {bs : List Byte} (hlen : bs.length ≤ 4096)
    {k : Nat} (hk : k < bs.length) (ha : ((s.storeAtI bs).advance.pc.toNat + 1) % 4096 = (s.i.toNat + k) % 4096) :
    (s.storeAtI bs).advance.fetchWord.extractLsb 7 0 = bs[k] := by
  rw [State.fetchWord_low, memAddr, ha]
  exact s.read_storeAtI h bs hlen k hk

/-- Digit `k` of a byte is the one of weight `10 ^ (2 - k)` (spec R143). -/
theorem toNat_getElem_decimalDigits (b : Byte) (k : Nat) (hk : k < (decimalDigits b).length) :
    (decimalDigits b)[k].toNat = b.toNat / 10 ^ (2 - k) % 10 := by
  have hb := b.isLt
  match k, hk with
  | 0, _ | 1, _ | 2, _ =>
    simp only [decimalDigits, List.getElem_cons_zero, List.getElem_cons_succ, BitVec.toNat_ofNat]
    omega

/-! ## Memory after a reset -/

/-- An image that fits is accepted, from any core or none (spec R230, R231). -/
theorem resetTo_of_fits (cfg : Config) {bytes : List Byte} (h : bytes.length ≤ maxImage) (m : Option State) :
    ∃ draws outputs, resetTo cfg (some bytes) m = (some (State.boot cfg bytes draws outputs), .accepted) := by
  cases m with
  | none => exact ⟨0, [], if_pos h⟩
  | some s => exact ⟨s.draws, s.outputs, if_pos h⟩

section
variable (cfg : Config) {image : List Byte}

theorem read_bootMemory_image (hlen : image.length ≤ maxImage) (k : Nat) (hk : k < image.length) :
    (bootMemory cfg image).read (0x200 + k) = image[k] := by
  have hfit : image.length ≤ 3584 := hlen
  have haddr : memAddr (0x200 + k) = 0x200 + k := Nat.mod_eq_of_lt (by omega)
  have hread := Memory.read_writeBytes_at (wf_bootMemory cfg []) 0x200 image (by omega) k hk
  rwa [haddr] at hread

/-- Outside the image memory holds what an empty image leaves. -/
theorem read_bootMemory_off_image (hlen : image.length ≤ maxImage) {a : Nat}
    (ha : a < 0x200 ∨ 0x200 + image.length ≤ a) :
    (bootMemory cfg image).read a = (bootMemory cfg []).read a := by
  refine Memory.read_writeBytes_other (bootMemory cfg []) 0x200 image fun k hk => ?_
  have hfit : image.length ≤ 3584 := hlen
  have haddr : memAddr (0x200 + k) = 0x200 + k := Nat.mod_eq_of_lt (by omega)
  omega

theorem read_bootMemory_nil_glyphs {a : Nat} (ha : a < 80) :
    (bootMemory cfg []).read a = (cfg.glyphs[a / 5]'(by omega))[a % 5]'(by omega) := by
  have hlen := length_glyphBytes cfg
  have hread := Memory.read_writeBytes_at (m := []) rfl 0 (glyphBytes cfg) (by omega) a (by omega)
  rw [Nat.zero_add, memAddr, Nat.mod_eq_of_lt (by omega), getElem_glyphBytes] at hread
  exact hread

theorem read_bootMemory_nil_above {a : Nat} (ha : 80 ≤ a) : (bootMemory cfg []).read a = 0 := by
  have hother : (bootMemory cfg []).read a = unlistedByte a := by
    refine Memory.read_writeBytes_other [] 0 (glyphBytes cfg) fun k hk => ?_
    rw [length_glyphBytes] at hk
    rw [memAddr]
    omega
  rw [hother, unlistedByte, dif_neg (Nat.not_lt.mpr ha)]

theorem read_bootMemory_glyph (hlen : image.length ≤ maxImage) {d k : Nat} (hd : d < 16) (hk : k < 5) :
    (bootMemory cfg image).read (5 * d + k) = cfg.glyphs[d][k] := by
  have hdiv : (5 * d + k) / 5 = d := by omega
  have hmod : (5 * d + k) % 5 = k := by omega
  rw [read_bootMemory_off_image cfg hlen (by omega), read_bootMemory_nil_glyphs cfg (by omega)]
  simp only [hdiv, hmod]

theorem read_bootMemory_zero (hlen : image.length ≤ maxImage) {a : Nat} (h80 : 80 ≤ a)
    (ha : a < 0x200 ∨ 0x200 + image.length ≤ a) : (bootMemory cfg image).read a = 0 :=
  (read_bootMemory_off_image cfg hlen ha).trans (read_bootMemory_nil_above cfg h80)

end

end Sys2Proof.Machine

namespace Sys2Proof.Proofs

open Sys2Proof.Machine

/-- Settles O7: the word fetched is the two bytes placed at `pc`. -/
theorem placedInstructionRuns : Obligations.PlacedInstructionRuns := by
  unfold Obligations.PlacedInstructionRuns
  intro s nbits w ins hwf hins
  obtain ⟨hi, lo, hbytes, hd⟩ := decodeTableWord_eq_some hins
  refine step_of_decode (s.running_withFetchWord nbits w) ?_
  rw [State.fetchWord_withFetchWord hwf hbytes, hd]

/-- Settles O30: byte `k` of the store is `V[k]`. -/
theorem storeIsSeenByTheNextFetch : Obligations.StoreIsSeenByTheNextFetch := by
  unfold Obligations.StoreIsSeenByTheNextFetch
  refine fun x s hwf => ⟨_, rfl, fun k hkx => ?_⟩
  have hlen := s.length_firstRegs x
  have hk : k.val < (s.firstRegs x).length := hlen ▸ Nat.lt_succ_of_le hkx
  have hbyte : (s.firstRegs x)[k.val] = s.getV k := s.getElem_firstRegs x k.val hk
  have hfit : (s.firstRegs x).length ≤ 4096 := by omega
  rw [← hbyte]
  exact ⟨State.fetchWord_high_of_storeAtI hwf hfit hk, State.fetchWord_low_of_storeAtI hwf hfit hk⟩

/-- Settles O54: byte `k` of the store is digit `k`. -/
theorem storedDigitIsSeenByTheNextFetch : Obligations.StoredDigitIsSeenByTheNextFetch := by
  unfold Obligations.StoredDigitIsSeenByTheNextFetch
  refine fun x s hwf => ⟨_, rfl, fun k hk => ?_⟩
  have hfit : (decimalDigits (s.getV x)).length ≤ 4096 := by simp [decimalDigits]
  rw [← toNat_getElem_decimalDigits (s.getV x) k hk]
  exact ⟨fun ha => congrArg BitVec.toNat (State.fetchWord_high_of_storeAtI hwf hfit hk ha),
    fun ha => congrArg BitVec.toNat (State.fetchWord_low_of_storeAtI hwf hfit hk ha)⟩

/-- Settles O48: a byte of the image, a byte of the glyphs, or a byte neither of them reaches. -/
theorem resetFillsMemory : Obligations.ResetFillsMemory := by
  unfold Obligations.ResetFillsMemory
  intro cfg bytes m hlen
  obtain ⟨draws, outputs, heq⟩ := resetTo_of_fits cfg hlen m
  refine ⟨_, heq, fun d hd k hk => ?_, fun a h80 ha => ?_, fun k hk => ?_, fun a ha _ => ?_⟩
  · exact read_bootMemory_glyph cfg hlen hd hk
  · exact read_bootMemory_zero cfg hlen h80 (.inl ha)
  · exact read_bootMemory_image cfg hlen k hk
  · exact read_bootMemory_zero cfg hlen (by omega) (.inr ha)

end Sys2Proof.Proofs
end

section
/-!
SUPPORT. The decoder and the encoder (spec 30_encoding.md): each undoes the other, the words the decoder refuses, and
the one row of the opcode map a word selects.
-/

namespace Sys2Proof

/-! ## Decoding the word of a format (R82, R87) -/

theorem decodeWord_encodeNNN (op : BitVec 4) (nnn : Addr12) :
    decodeWord (encodeNNN op nnn) = decodeOp op (encodeNNN op nnn) :=
  decodeWord_of_op (fieldOp_NNN op nnn)

theorem decodeWord_encodeXNN (op : BitVec 4) (x : Reg) (nn : Byte) :
    decodeWord (encodeXNN op x nn) = decodeOp op (encodeXNN op x nn) :=
  decodeWord_of_op (fieldOp_XNN op x nn)

theorem decodeWord_encodeXYN (op : BitVec 4) (x y : Reg) (n : Fin 16) :
    decodeWord (encodeXYN op x y n) = decodeOp op (encodeXYN op x y n) :=
  decodeWord_of_op (fieldOp_XYN op x y (nibble n))

@[simp] theorem fieldNNN_encodeNNN (op : BitVec 4) (nnn : Addr12) : fieldNNN (encodeNNN op nnn) = nnn :=
  fieldNNN_NNN op nnn

@[simp] theorem fieldX_encodeXNN (op : BitVec 4) (x : Reg) (nn : Byte) : fieldX (encodeXNN op x nn) = x :=
  fieldX_XNN op x nn

@[simp] theorem fieldNN_encodeXNN (op : BitVec 4) (x : Reg) (nn : Byte) : fieldNN (encodeXNN op x nn) = nn :=
  fieldNN_XNN op x nn

@[simp] theorem fieldX_encodeXYN (op : BitVec 4) (x y : Reg) (n : Fin 16) : fieldX (encodeXYN op x y n) = x :=
  fieldX_XYN op x y (nibble n)

@[simp] theorem fieldY_encodeXYN (op : BitVec 4) (x y : Reg) (n : Fin 16) : fieldY (encodeXYN op x y n) = y :=
  fieldY_XYN op x y (nibble n)

@[simp] theorem fieldN_encodeXYN (op : BitVec 4) (x y : Reg) (n : Fin 16) : fieldN (encodeXYN op x y n) = n :=
  fieldN_XYN op x y n

/-- The register a well-formed `Bnnn` names is the one its word's `x` field names (R104). -/
theorem fieldX_encodeNNN_of_wellFormed (op : BitVec 4) {x : Reg} {nnn : Addr12} (h : WellFormed (.jpx x nnn)) :
    fieldX (encodeNNN op nnn) = x := by
  refine Fin.ext ?_
  rw [fieldX_eq_topDigit, fieldNNN_encodeNNN]
  exact (eq_of_beq h).symm

/-- `op` = 8: the minor opcode of the word is its `n`. -/
theorem decodeWord_encodeXYN_8 (x y : Reg) (n : Fin 16) : decodeWord (encodeXYN 0x8 x y n) = decode8 x y n := by
  rw [decodeWord_encodeXYN]
  show decode8 _ _ _ = _
  simp only [fieldX_encodeXYN, fieldY_encodeXYN, fieldN_encodeXYN]

/-- `op` = E: the minor opcode of the word is its `nn`. -/
theorem decodeWord_encodeXNN_E (x : Reg) (nn : Byte) : decodeWord (encodeXNN 0xE x nn) = decodeE x nn := by
  rw [decodeWord_encodeXNN]
  show decodeE _ _ = _
  simp only [fieldX_encodeXNN, fieldNN_encodeXNN]

/-- `op` = F: the minor opcode of the word is its `nn`. -/
theorem decodeWord_encodeXNN_F (x : Reg) (nn : Byte) : decodeWord (encodeXNN 0xF x nn) = decodeF x nn := by
  rw [decodeWord_encodeXNN]
  show decodeF _ _ = _
  simp only [fieldX_encodeXNN, fieldNN_encodeXNN]

/-- Decoding undoes encoding (R82, R87). -/
theorem decodeWord_encode {ins : Instr} (h : WellFormed ins) : decodeWord (encode ins) = .ok ins := by
  cases ins
  case cls | ret => rfl
  case jp | call | ldI => simp [encode, decodeWord_encodeNNN, decodeOp]
  case jpx => simp [encode, decodeWord_encodeNNN, decodeOp, fieldX_encodeNNN_of_wellFormed _ h]
  case seImm | sneImm | ldImm | addImm | rnd => simp [encode, decodeWord_encodeXNN, decodeOp]
  case seReg | sneReg | drw => simp [encode, decodeWord_encodeXYN, decodeOp]
  case ldReg | orReg | andReg | xorReg | addReg | subReg | shr | subnReg | shl =>
    exact decodeWord_encodeXYN_8 _ _ _
  case skp | sknp => exact decodeWord_encodeXNN_E _ _
  all_goals exact decodeWord_encodeXNN_F _ _

/-! ## Encoding what a word decodes to (R84, R87) -/

/-- A row that is tried first, and the rows after it where it does not match. -/
theorem encode_of_ite {c : Prop} [Decidable c] {a ins : Instr} {d : Except Unrecognized Instr} {w : Word}
    (ha : c → WellFormed a ∧ encode a = w) (hd : d = .ok ins → WellFormed ins ∧ encode ins = w) :
    (if c then .ok a else d) = .ok ins → WellFormed ins ∧ encode ins = w := by
  intro h
  split at h
  · next hc => exact Except.ok.inj h ▸ ha hc
  · exact hd h

theorem encode_of_decodeFixed {w : Word} {ins : Instr} :
    decodeFixed w = .ok ins → WellFormed ins ∧ encode ins = w := by
  unfold decodeFixed
  iterate 2 refine encode_of_ite (fun hw => ⟨rfl, hw.symm⟩) ?_
  exact nofun

theorem encode_of_decode8 {x y : Reg} {n : Fin 16} {ins : Instr} :
    decode8 x y n = .ok ins → WellFormed ins ∧ encode ins = encodeXYN 0x8 x y n := by
  unfold decode8
  iterate 9 refine encode_of_ite (fun hn => hn ▸ ⟨rfl, rfl⟩) ?_
  exact nofun

theorem encode_of_decodeE {x : Reg} {nn : Byte} {ins : Instr} :
    decodeE x nn = .ok ins → WellFormed ins ∧ encode ins = encodeXNN 0xE x nn := by
  unfold decodeE
  iterate 2 refine encode_of_ite (fun hnn => hnn ▸ ⟨rfl, rfl⟩) ?_
  exact nofun

theorem encode_of_decodeF {x : Reg} {nn : Byte} {ins : Instr} :
    decodeF x nn = .ok ins → WellFormed ins ∧ encode ins = encodeXNN 0xF x nn := by
  unfold decodeF
  iterate 9 refine encode_of_ite (fun hnn => hnn ▸ ⟨rfl, rfl⟩) ?_
  exact nofun

theorem encodeNNN_of_fieldOp {w : Word} {op : BitVec 4} (h : fieldOp w = op) : encodeNNN op (fieldNNN w) = w :=
  h ▸ word_eq_NNN w

theorem encodeXNN_of_fieldOp {w : Word} {op : BitVec 4} (h : fieldOp w = op) :
    encodeXNN op (fieldX w) (fieldNN w) = w :=
  h ▸ word_eq_XNN w

theorem encodeXYN_of_fieldOp {w : Word} {op : BitVec 4} (h : fieldOp w = op) :
    encodeXYN op (fieldX w) (fieldY w) (fieldN w) = w :=
  h ▸ word_eq_XYN w

/-- Encoding undoes decoding (R82, R87). -/
theorem encode_of_decodeWord {w : Word} {ins : Instr} (h : decodeWord w = .ok ins) :
    WellFormed ins ∧ encode ins = w := by
  unfold decodeWord decodeOp at h
  split at h
  case h_1 => exact encode_of_decodeFixed h
  case h_2 hop | h_3 hop | h_11 hop =>
    cases h
    exact ⟨rfl, encodeNNN_of_fieldOp hop⟩
  case h_12 hop =>
    cases h
    exact ⟨beq_iff_eq.mpr (fieldX_eq_topDigit w), encodeNNN_of_fieldOp hop⟩
  case h_4 hop | h_5 hop | h_7 hop | h_8 hop | h_13 hop =>
    cases h
    exact ⟨rfl, encodeXNN_of_fieldOp hop⟩
  case h_14 hop =>
    cases h
    exact ⟨rfl, encodeXYN_of_fieldOp hop⟩
  case h_6 hop | h_10 hop =>
    have henc := encodeXYN_of_fieldOp hop
    refine encode_of_ite (fun hn => ?_) ?_ h
    · rw [hn] at henc
      exact ⟨rfl, henc⟩
    · exact nofun
  case h_9 hop =>
    obtain ⟨hwf, henc⟩ := encode_of_decode8 h
    exact ⟨hwf, henc.trans (encodeXYN_of_fieldOp hop)⟩
  case h_15 hop =>
    obtain ⟨hwf, henc⟩ := encode_of_decodeE h
    exact ⟨hwf, henc.trans (encodeXNN_of_fieldOp hop)⟩
  case h_16 =>
    have hop : fieldOp w = 0xF := by
      have hcases := op_cases (fieldOp w)
      tauto
    obtain ⟨hwf, henc⟩ := encode_of_decodeF h
    exact ⟨hwf, henc.trans (encodeXNN_of_fieldOp hop)⟩

/-! ## The unrecognized words (R88) -/

/-- A row that is tried first is no refusal; the rows after it decide where it does not match. -/
theorem exists_ite_ok_eq_error {c : Prop} [Decidable c] {ins : Instr} {d : Except Unrecognized Instr} :
    (∃ why, (if c then .ok ins else d) = .error why) ↔ ¬ c ∧ ∃ why, d = .error why := by
  by_cases h : c <;> simp [h]

theorem exists_decodeFixed_eq_error {w : Word} :
    (∃ why, decodeFixed w = .error why) ↔ w ≠ 0x00E0 ∧ w ≠ 0x00EE := by
  simp [decodeFixed, exists_ite_ok_eq_error]

theorem exists_decode8_eq_error {x y : Reg} {n : Fin 16} :
    (∃ why, decode8 x y n = .error why) ↔ n ∉ [0, 1, 2, 3, 4, 5, 6, 7, 0xE] := by
  simp [decode8, exists_ite_ok_eq_error]

theorem exists_decodeE_eq_error {x : Reg} {nn : Byte} :
    (∃ why, decodeE x nn = .error why) ↔ nn ∉ [0x9E, 0xA1] := by
  simp [decodeE, exists_ite_ok_eq_error]

theorem exists_decodeF_eq_error {x : Reg} {nn : Byte} :
    (∃ why, decodeF x nn = .error why) ↔ nn ∉ [0x07, 0x0A, 0x15, 0x18, 0x1E, 0x29, 0x33, 0x55, 0x65] := by
  simp [decodeF, exists_ite_ok_eq_error]

/-- Six values of `op` have unrecognized words; which they are is the table of R88. -/
theorem exists_decodeOp_eq_error {op : BitVec 4} {w : Word} :
    (∃ why, decodeOp op w = .error why) ↔
      (op = 0x0 ∧ w ≠ 0x00E0 ∧ w ≠ 0x00EE) ∨
      (op = 0x5 ∧ fieldN w ≠ 0) ∨
      (op = 0x8 ∧ fieldN w ∉ [0, 1, 2, 3, 4, 5, 6, 7, 0xE]) ∨
      (op = 0x9 ∧ fieldN w ≠ 0) ∨
      (op = 0xE ∧ fieldNN w ∉ [0x9E, 0xA1]) ∨
      (op = 0xF ∧ fieldNN w ∉ [0x07, 0x0A, 0x15, 0x18, 0x1E, 0x29, 0x33, 0x55, 0x65]) := by
  rcases op_cases op with rfl | rfl | rfl | rfl | rfl | rfl | rfl | rfl |
    rfl | rfl | rfl | rfl | rfl | rfl | rfl | rfl
  case inl => simpa [decodeOp] using exists_decodeFixed_eq_error
  all_goals
    simp [decodeOp, exists_ite_ok_eq_error, exists_decode8_eq_error, exists_decodeE_eq_error, exists_decodeF_eq_error]

/-! ## The rows of the opcode map (R86) -/

theorem selects_iff {r : OpcodeRow} {w : Word} : r.selects w = true ↔ w &&& r.mask = r.value := beq_iff_eq

/-- Any two rows differ in a bit that both of them fix. -/
theorem opcodeMap_pairwise_disjoint :
    opcodeMap.Pairwise fun r r' => r.value &&& r'.mask ≠ r'.value &&& r.mask := by
  decide

/-- So a word that selects a row selects no other. -/
theorem filter_selects_eq_singleton {r : OpcodeRow} {w : Word} (hr : r ∈ opcodeMap) (hw : r.selects w = true) :
    (opcodeMap.filter fun r => r.selects w) = [r] := by
  have hmem : r ∈ opcodeMap.filter fun r => r.selects w := List.mem_filter.mpr ⟨hr, hw⟩
  have hsel : ∀ r' ∈ opcodeMap.filter fun r => r.selects w, w &&& r'.mask = r'.value :=
    fun r' h => selects_iff.mp (List.mem_filter.mp h).2
  have hdisj := opcodeMap_pairwise_disjoint.filter fun r => r.selects w
  generalize opcodeMap.filter (fun r => r.selects w) = rows at hmem hsel hdisj
  match rows with
  | [] => cases hmem
  | [_] => rw [List.mem_singleton.mp hmem]
  | r₁ :: r₂ :: _ =>
    have h₁ := hsel r₁ (by simp)
    have h₂ := hsel r₂ (by simp)
    have hne := List.rel_of_pairwise_cons hdisj (List.mem_cons_self (a := r₂))
    rw [← h₁, ← h₂] at hne
    exact absurd (by ac_rfl) hne

/-- Every row fixes what the decoder looks at for its `op`: `op` itself, and the digit, byte or word that tells the
rows of one `op` apart. -/
theorem opcodeMap_mask : ∀ r ∈ opcodeMap, fieldOp r.mask = 0xF ∧
    (fieldOp r.value = 0x0 → r.mask = 0xFFFF) ∧
    (fieldOp r.value ∈ [0x5#4, 0x8#4, 0x9#4] → fieldN r.mask = 0xF) ∧
    (fieldOp r.value ∈ [0xE#4, 0xF#4] → fieldNN r.mask = 0xFF) := by
  decide

/-- The word with zeros in every free field of a row is recognized. -/
theorem opcodeMap_value_recognized : ∀ r ∈ opcodeMap, (decodeWord r.value).isOk = true := by
  decide

theorem fieldOp_and_of_mask {m : Word} (h : fieldOp m = 0xF) (w : Word) : fieldOp (w &&& m) = fieldOp w := by
  have hand : fieldOp (w &&& m) = fieldOp w &&& fieldOp m := BitVec.extractLsb_and
  rw [hand, h]
  exact BitVec.and_allOnes

theorem fieldNN_and_of_mask {m : Word} (h : fieldNN m = 0xFF) (w : Word) : fieldNN (w &&& m) = fieldNN w := by
  have hand : fieldNN (w &&& m) = fieldNN w &&& fieldNN m := BitVec.extractLsb_and
  rw [hand, h]
  exact BitVec.and_allOnes

theorem fieldN_and_of_mask {m : Word} (h : fieldN m = 0xF) (w : Word) : fieldN (w &&& m) = fieldN w := by
  have hm : m.extractLsb 3 0 = 0xF#4 := BitVec.eq_of_toNat_eq (Fin.ext_iff.mp h)
  have hand : (w &&& m).extractLsb 3 0 = w.extractLsb 3 0 &&& m.extractLsb 3 0 := BitVec.extractLsb_and
  rw [hm] at hand
  exact Fin.ext (congrArg BitVec.toNat (hand.trans BitVec.and_allOnes))

/-- Whether a word is refused depends on no field but those R88 names for its `op`. -/
theorem exists_decodeOp_eq_error_congr {op : BitVec 4} {w w' : Word} (h : ∃ why, decodeOp op w = .error why)
    (hword : op = 0x0 → w' = w) (hN : op ∈ [0x5#4, 0x8#4, 0x9#4] → fieldN w' = fieldN w)
    (hNN : op ∈ [0xE#4, 0xF#4] → fieldNN w' = fieldNN w) : ∃ why, decodeOp op w' = .error why := by
  rw [exists_decodeOp_eq_error] at h ⊢
  rcases h with ⟨rfl, h⟩ | ⟨rfl, h⟩ | ⟨rfl, h⟩ | ⟨rfl, h⟩ | ⟨rfl, h⟩ | ⟨rfl, h⟩
  · simpa [hword rfl] using h
  · simpa [hN (by decide)] using h
  · simpa [hN (by decide)] using h
  · simpa [hN (by decide)] using h
  · simpa [hNN (by decide)] using h
  · simpa [hNN (by decide)] using h

/-- A word that selects a row is recognized. -/
theorem recognized_of_selects {r : OpcodeRow} {w : Word} (hr : r ∈ opcodeMap) (hw : r.selects w = true) :
    ¬ ∃ why, decodeWord w = .error why := by
  obtain ⟨hmop, hmword, hmN, hmNN⟩ := opcodeMap_mask r hr
  have hval := selects_iff.mp hw
  have hop : fieldOp r.value = fieldOp w := hval ▸ fieldOp_and_of_mask hmop w
  rw [hop] at hmword hmN hmNN
  intro hrefused
  have hvalue : ∃ why, decodeOp (fieldOp w) r.value = .error why := by
    refine exists_decodeOp_eq_error_congr hrefused (fun h => ?_) (fun h => ?_) (fun h => ?_)
    · rw [← hval, hmword h]
      exact BitVec.and_allOnes
    · rw [← hval, fieldN_and_of_mask (hmN h)]
    · rw [← hval, fieldNN_and_of_mask (hmNN h)]
  obtain ⟨why, herr⟩ := hvalue
  have hok := opcodeMap_value_recognized r hr
  rw [decodeWord_of_op hop, herr] at hok
  cases hok

theorem filter_selects_of_refused {w : Word} (h : ∃ why, decodeWord w = .error why) :
    (opcodeMap.filter fun r => r.selects w) = [] :=
  List.filter_eq_nil_iff.mpr fun _ hr hw => recognized_of_selects hr hw h

end Sys2Proof

namespace Sys2Proof.Laws

/-- The word of any instruction selects a row that carries its pattern, by the lemma of its constructor (R86). -/
theorem rowSelected (ins : Instr) : RowSelected.Statement ins :=
  match ins with
  | .cls => RowSelected.cls
  | .ret => RowSelected.ret
  | .jp nnn => RowSelected.jp nnn
  | .call nnn => RowSelected.call nnn
  | .seImm x nn => RowSelected.seImm x nn
  | .sneImm x nn => RowSelected.sneImm x nn
  | .seReg x y => RowSelected.seReg x y
  | .ldImm x nn => RowSelected.ldImm x nn
  | .addImm x nn => RowSelected.addImm x nn
  | .ldReg x y => RowSelected.ldReg x y
  | .orReg x y => RowSelected.orReg x y
  | .andReg x y => RowSelected.andReg x y
  | .xorReg x y => RowSelected.xorReg x y
  | .addReg x y => RowSelected.addReg x y
  | .subReg x y => RowSelected.subReg x y
  | .shr x y => RowSelected.shr x y
  | .subnReg x y => RowSelected.subnReg x y
  | .shl x y => RowSelected.shl x y
  | .sneReg x y => RowSelected.sneReg x y
  | .ldI nnn => RowSelected.ldI nnn
  | .jpx x nnn => RowSelected.jpx x nnn
  | .rnd x nn => RowSelected.rnd x nn
  | .drw x y n => RowSelected.drw x y n
  | .skp x => RowSelected.skp x
  | .sknp x => RowSelected.sknp x
  | .ldVxDt x => RowSelected.ldVxDt x
  | .ldVxKey x => RowSelected.ldVxKey x
  | .ldDtVx x => RowSelected.ldDtVx x
  | .ldStVx x => RowSelected.ldStVx x
  | .addI x => RowSelected.addI x
  | .ldGlyph x => RowSelected.ldGlyph x
  | .ldBcd x => RowSelected.ldBcd x
  | .storeRegs x => RowSelected.storeRegs x
  | .loadRegs x => RowSelected.loadRegs x

/-- The rows the word of an instruction selects are the one that carries its pattern. -/
theorem patterns_selected_by_encode (ins : Instr) :
    (opcodeMap.filter fun r => r.selects (encode ins)).map (·.pattern) = [ins.pattern] := by
  obtain ⟨r, hr, hpattern, hselects⟩ := rowSelected ins
  rw [filter_selects_eq_singleton hr hselects, List.map_singleton, hpattern]

end Sys2Proof.Laws

namespace Sys2Proof.Machine

/-- A reported word changes `pc` and the history of events only (R191). -/
theorem unchangedBut_diagnose (s : State) (w : Word) : UnchangedBut [.pc, .outputs] s (s.diagnose w) := by
  intro p hp
  cases p
  case pc | outputs => simp at hp
  all_goals rfl

/-- An instruction of a running core ends halted exactly where it enters a hard fault (R190, R197). -/
theorem exec_halted_iff (ins : Instr) {s : State} (hrun : Running s) : ∃ t, exec ins s = .next t ∧
    (t.halted = true ↔ ((∃ nnn, ins = .call nnn) ∧ s.sp = 16) ∨ (ins = .ret ∧ s.sp = 0)) := by
  obtain ⟨t, he, hcases⟩ := exec_cases ins s
  refine ⟨t, he, ?_⟩
  rcases hcases with ⟨nnn, rfl, hsp, rfl⟩ | ⟨rfl, hsp, rfl⟩ | ⟨hcall, hret, hhalt, -⟩
  · exact iff_of_true rfl (.inl ⟨⟨nnn, rfl⟩, hsp⟩)
  · exact iff_of_true rfl (.inr ⟨rfl, hsp⟩)
  · rw [hhalt, hrun]
    refine iff_of_false Bool.false_ne_true ?_
    rintro (⟨⟨nnn, hins⟩, hsp⟩ | h)
    · exact hcall ⟨nnn, hins, hsp⟩
    · exact hret h

end Sys2Proof.Machine

namespace Sys2Proof.Proofs

open Sys2Proof.Machine

/-- Settles O2, by the format of each row. -/
theorem decodeOfEncode : Obligations.DecodeOfEncode := by
  unfold Obligations.DecodeOfEncode
  exact fun _ hwf => decodeWord_encode hwf

/-- Settles O3, by the case of the word's `op`: the word is put together from the fields the decoder took. -/
theorem encodeOfDecode : Obligations.EncodeOfDecode := by
  unfold Obligations.EncodeOfDecode
  exact fun _ _ hd => encode_of_decodeWord hd

/-- Settles O4: a recognized word is the word of its instruction, whose row it selects, and rows exclude each other;
a row that an unrecognized word selected would make it recognized. -/
theorem everyWordSelectsItsOwnRow : Obligations.EveryWordSelectsItsOwnRow := by
  unfold Obligations.EveryWordSelectsItsOwnRow
  refine ⟨rfl, fun w => ?_⟩
  cases hd : decodeWord w with
  | ok ins =>
    obtain ⟨-, henc⟩ := encode_of_decodeWord hd
    exact henc ▸ Laws.patterns_selected_by_encode ins
  | error why =>
    rw [filter_selects_of_refused ⟨why, hd⟩]
    rfl

/-- Settles O5, by the sixteen values of `op`. -/
theorem unrecognizedWordsAreTheSixClasses : Obligations.UnrecognizedWordsAreTheSixClasses := by
  unfold Obligations.UnrecognizedWordsAreTheSixClasses
  exact fun _ => exists_decodeOp_eq_error

/-- Settles O10: an instruction halts on the two stack conditions only, and a reported word does not halt. -/
theorem onlyStackFaultsHalt : Obligations.OnlyStackFaultsHalt := by
  unfold Obligations.OnlyStackFaultsHalt
  intro s hrun
  cases hd : decodeWord s.fetchWord with
  | ok ins =>
    rw [step_of_decode hrun hd]
    simpa using exec_halted_iff ins hrun
  | error why =>
    refine ⟨_, step_of_unrecognized hrun hd, ?_⟩
    simp [show s.halted = false from hrun]

/-- Settles O1: each word is the encoding of its instruction. -/
theorem wordsOfEachFormatDecode : Obligations.WordsOfEachFormatDecode := by
  unfold Obligations.WordsOfEachFormatDecode
  exact ⟨decodeWord_encode (ins := .cls) rfl, decodeWord_encode (ins := .ret) rfl,
    decodeWord_encode (ins := .jp 0xABC) rfl, decodeWord_encode (ins := .ldImm 10 0x3E) rfl,
    decodeWord_encode (ins := .addReg 1 2) rfl, decodeWord_encode (ins := .drw 5 10 3) rfl,
    decodeWord_encode (ins := .loadRegs 3) rfl, decodeWord_encode (ins := .jpx 2 0x2F0) rfl⟩

/-- Settles O6: the two bytes make the word fetched. -/
theorem stepRunsTheDecodedInstruction : Obligations.StepRunsTheDecodedInstruction := by
  unfold Obligations.StepRunsTheDecodedInstruction
  exact fun _ _ hrun hd => step_of_decode hrun hd

/-- Settles O8: the step reports the word and advances. -/
theorem unrecognizedWordIsReportedAndSkipped : Obligations.UnrecognizedWordIsReportedAndSkipped := by
  unfold Obligations.UnrecognizedWordIsReportedAndSkipped
  intro s why hrun hd
  exact ⟨_, step_of_unrecognized hrun hd, rfl, rfl, unchangedBut_diagnose s _⟩

end Sys2Proof.Proofs
end

section
/-!
SUPPORT. Control transfer (spec 40_control_flow.md): what jumps, skips, calls, returns and hard faults leave alone, the
numbers jumps put into `pc`, and the stack entries that stay as they are along a run.
-/

namespace Sys2Proof

/-! ## Words and targets -/

/-- `op` 5 and 9 fix the last digit of the word (R88, decision D19). -/
theorem exists_decodeWord_encodeXYN_eq_error {op : BitVec 4} (hop : op = 0x5 ∨ op = 0x9) (x y : Reg) {n : Fin 16}
    (hn : n ≠ 0) : ∃ why, decodeWord (encodeXYN op x y n) = .error why := by
  rw [decodeWord_encodeXYN, exists_decodeOp_eq_error, fieldN_encodeXYN]
  rcases hop with rfl | rfl <;> simp [hn]

theorem wellFormed_jpx_iff {x : Reg} {nnn : Addr12} : WellFormed (.jpx x nnn) ↔ x.val = nnn.toNat / 256 := beq_iff_eq

end Sys2Proof

namespace Sys2Proof.Machine

@[simp] theorem toNat_zext16 (nnn : Addr12) : (zext16 nnn).toNat = nnn.toNat :=
  BitVec.toNat_setWidth_of_le (by decide)

@[simp] theorem toNat_regWord (b : Byte) : (regWord b).toNat = b.toNat :=
  BitVec.toNat_setWidth_of_le (by decide)

/-- An address and a byte add up to less than 65536, so the indexed jump does not wrap (R104). -/
theorem toNat_zext16_add_regWord (nnn : Addr12) (b : Byte) :
    (zext16 nnn + regWord b).toNat = nnn.toNat + b.toNat := by
  have hnnn := nnn.isLt
  have hb := b.isLt
  rw [BitVec.toNat_add_of_lt] <;> rw [toNat_zext16, toNat_regWord]
  omega

/-! ## Frames -/

theorem unchangedBut_setPc (s : State) (w : Word) : UnchangedBut [.pc] s (s.setPc w) := by
  intro p hp
  cases p
  case pc => simp at hp
  all_goals rfl

theorem unchangedBut_skipIf (s : State) (c : Bool) : UnchangedBut [.pc] s (s.skipIf c) := by
  cases c
  · exact unchangedBut_setPc s (s.pc + 2)
  · exact unchangedBut_setPc s (s.pc + 4)

/-- A return leaves the stack's entries, the one it uncounts too (R101). -/
theorem unchangedBut_pc_sp (s : State) (w : Word) (n : Fin 17) :
    UnchangedBut [.pc, .sp] s { s with pc := w, sp := n } := by
  intro p hp
  cases p
  case pc | sp => simp at hp
  all_goals rfl

/-- A call changes one entry of the stack, the first that is not live (R103). -/
theorem unchangedBut_pc_sp_stack (s : State) (h : s.sp.val < 16) (w ret : Word) (n : Fin 17) :
    UnchangedBut [.pc, .sp, .stack ⟨s.sp.val, h⟩] s
      { s with pc := w, stack := s.stack.set s.sp.val ret, sp := n } := by
  intro p hp
  cases p
  case pc | sp => simp at hp
  case stack k =>
    have hne : s.sp.val ≠ k.val := fun heq => by simp [heq] at hp
    exact Vector.getElem_set_ne h k.isLt hne
  all_goals rfl

/-- The entry of a hard fault changes the fault state and the history of events only (R194). -/
theorem unchangedBut_hardFault (s : State) (cause : FaultCause) (w : Word) :
    UnchangedBut hardFaultPieces s (s.hardFault cause w) := by
  intro p hp
  cases p
  case halted | faultCause | faultInstr | faultPc | outputs => simp [hardFaultPieces] at hp
  all_goals rfl

/-! ## Skips -/

/-- An instruction whose meaning is the skip action under a test has the effect of a skip (R83). -/
theorem skipsWhen_of_exec {ins : Instr} {cond : State → Prop} {test : State → Bool}
    (he : ∀ s, exec ins s = .next (s.skipIf (test s))) (htest : ∀ s, test s = true ↔ cond s) :
    SkipsWhen ins cond := by
  refine fun s => ⟨_, he s, fun hc => ?_, fun hc => ?_, unchangedBut_skipIf s _⟩
  · rw [State.skipIf_pc, if_pos ((htest s).mpr hc)]
  · rw [State.skipIf_pc, if_neg (mt (htest s).mp hc)]

/-! ## Live stack entries -/

/-- An instruction leaves every live stack entry as it is: a call writes the first entry above them (R101, R103). -/
theorem stack_of_exec_of_live {ins : Instr} {s t : State} (he : exec ins s = .next t) {k : Fin 16}
    (hk : k.val < s.sp.val) : t.stack[k] = s.stack[k] := by
  obtain ⟨-, -, hcall, -⟩ := Proofs.onlyNamedInstructionsWrite ins s t he
  by_cases hstack : t.stack = s.stack
  · rw [hstack]
  obtain ⟨nnn, rfl⟩ := hcall hstack
  rcases sp_full_or_room s with hfull | hroom
  · cases (execCall_of_full hfull nnn).symm.trans he
    rfl
  · cases (execCall_of_room hroom nnn).symm.trans he
    exact Vector.getElem_set_ne hroom k.isLt hk.ne'

theorem stack_of_step_of_live {s t : State} (hs : step s = .next t) {k : Fin 16} (hk : k.val < s.sp.val) :
    t.stack[k] = s.stack[k] := by
  rcases step_cases s with ⟨-, heq⟩ | ⟨-, ins, -, heq⟩ | ⟨-, why, -, heq⟩
  · cases heq.symm.trans hs
    rfl
  · exact stack_of_exec_of_live (heq.symm.trans hs) hk
  · cases heq.symm.trans hs
    rfl

/-- Every transition but reset leaves every live stack entry as it is: only steps touch the stack (R44). -/
theorem stack_of_transition_of_live {cfg : Config} {e : Input} {s t : State} (he : e.isReset = false)
    (ht : transition cfg e (some s) = .next (some t)) {k : Fin 16} (hk : k.val < s.sp.val) :
    t.stack[k] = s.stack[k] := by
  cases e with
  | reset image => cases he
  | step =>
    obtain ⟨t', hstep, htt⟩ := started_eq_next ht
    cases htt
    exact stack_of_step_of_live hstep hk
  | tick =>
    obtain ⟨dt, st, outputs, heq⟩ := tick_eq_update s
    cases ht
    rw [heq]
  | press key =>
    obtain ⟨keys, lastKey, heq⟩ := press_eq_update key s
    cases ht
    rw [heq]
  | release key =>
    obtain ⟨keys, heq⟩ := release_eq_update key s
    cases ht
    rw [heq]

/-- A run that keeps `d` entries live ends with `d` entries live. -/
theorem RunAtDepth.le_sp {cfg : Config} {d : Nat} {s t : State} (h : RunAtDepth cfg d s t) : d ≤ t.sp.val := by
  cases h with
  | start hd => exact hd
  | next _ _ _ _ hd => exact hd

/-- A run that keeps `d` entries live leaves the lowest `d` entries as they were when it began (R109). -/
theorem RunAtDepth.stack_eq {cfg : Config} {d : Nat} {s t : State} (h : RunAtDepth cfg d s t) {k : Fin 16}
    (hk : k.val < d) : t.stack[k] = s.stack[k] := by
  induction h with
  | start _ => rfl
  | next _ hrun he ht _ ih => exact (stack_of_transition_of_live he ht (hk.trans_le hrun.le_sp)).trans ih

/-- A return that finds `k + 1` live entries goes to the top one (R101). -/
theorem execRet_of_sp_eq {s : State} {k : Fin 16} (h : s.sp.val = k.val + 1) :
    exec .ret s = .next { s with pc := s.stack[k], sp := k.castSucc } := by
  have hk : s.sp.val - 1 = k.val := by omega
  rw [execRet_of_live (by omega)]
  simp only [hk]
  rfl

end Sys2Proof.Machine

namespace Sys2Proof.Proofs

open Sys2Proof.Machine

/-- Settles O18: the call fills the entry at its depth, the run keeps the entry, and the return at the same depth reads
it. -/
theorem returnUndoesItsCall : Obligations.ReturnUndoesItsCall := by
  unfold Obligations.ReturnUndoesItsCall
  refine ⟨fun nnn s t hrun he => ?_, fun cfg nnn s t u hroom he hpath hsp => ?_⟩
  · obtain ⟨t', he', hhalt⟩ := exec_halted_iff (.call nnn) hrun
    cases he'.symm.trans he
    have hfull : t.halted = true ↔ s.sp = 16 := by simpa using hhalt
    exact hfull.trans Fin.ext_iff
  · cases (execCall_of_room hroom nnn).symm.trans he
    have hentry : u.stack[s.sp.val] = s.pc + 2 :=
      (hpath.stack_eq (k := ⟨s.sp.val, hroom⟩) (Nat.lt_succ_self _)).trans (Vector.getElem_set_self hroom)
    exact ⟨_, execRet_of_sp_eq (k := ⟨s.sp.val, hroom⟩) (congrArg Fin.val hsp), hentry, rfl⟩

/-- Settles O12: the jump replaces `pc` by the zero-extended address. -/
theorem jumpGoesToItsAddress : Obligations.JumpGoesToItsAddress := by
  unfold Obligations.JumpGoesToItsAddress
  refine fun nnn => ⟨decodeWord_encode (ins := .jp nnn) rfl, fun s => ?_⟩
  exact ⟨_, rfl, toNat_zext16 nnn, unchangedBut_setPc s _⟩

/-- Settles O13, by the stack level: room for one more entry, or none. -/
theorem callPushesAndJumpsOrFaults : Obligations.CallPushesAndJumpsOrFaults := by
  unfold Obligations.CallPushesAndJumpsOrFaults
  refine fun nnn => ⟨decodeWord_encode (ins := .call nnn) rfl, fun s => ⟨fun hroom => ?_, fun hfull => ?_⟩⟩
  · exact ⟨_, execCall_of_room hroom nnn, Vector.getElem_set_self hroom, rfl, toNat_zext16 nnn,
      unchangedBut_pc_sp_stack s hroom _ _ _⟩
  · exact ⟨_, execCall_of_full (Fin.ext hfull) nnn, rfl, rfl, unchangedBut_hardFault s _ _⟩

/-- Settles O14, by the stack level: a live entry on top, or none. -/
theorem returnPopsOrFaults : Obligations.ReturnPopsOrFaults := by
  unfold Obligations.ReturnPopsOrFaults
  refine ⟨decodeWord_encode (ins := .ret) rfl, fun s => ⟨fun k hk hsp => ?_, fun hempty => ?_⟩⟩
  · exact ⟨_, execRet_of_sp_eq (k := ⟨k, hk⟩) hsp, rfl, rfl, unchangedBut_pc_sp s _ _⟩
  · exact ⟨_, execRet_of_empty (Fin.ext hempty), rfl, rfl, unchangedBut_hardFault s _ _⟩

/-- Settles O16: the word's register is the top digit of its address, and the sum fits in `pc`. -/
theorem indexedJumpAddsItsOwnRegister : Obligations.IndexedJumpAddsItsOwnRegister := by
  unfold Obligations.IndexedJumpAddsItsOwnRegister
  refine ⟨fun nnn => ?_, fun x nnn s => ?_⟩
  · exact decodeWord_encode (ins := .jpx ⟨nnn.toNat / 256, by omega⟩ nnn) (wellFormed_jpx_iff.mpr rfl)
  · exact ⟨_, rfl, toNat_zext16_add_regWord nnn _, unchangedBut_setPc s _⟩

/-- Settles O17: each is the skip action under its own comparison. -/
theorem registerSkips : Obligations.RegisterSkips := by
  unfold Obligations.RegisterSkips
  refine ⟨fun x nn => ⟨decodeWord_encode (ins := .seImm x nn) rfl, ?_⟩,
    fun x nn => ⟨decodeWord_encode (ins := .sneImm x nn) rfl, ?_⟩,
    fun x y => ⟨decodeWord_encode (ins := .seReg x y) rfl,
      fun _ hn => exists_decodeWord_encodeXYN_eq_error (.inl rfl) x y hn, ?_⟩,
    fun x y => ⟨decodeWord_encode (ins := .sneReg x y) rfl,
      fun _ hn => exists_decodeWord_encodeXYN_eq_error (.inr rfl) x y hn, ?_⟩⟩
  · exact skipsWhen_of_exec (fun _ => rfl) fun _ => beq_iff_eq
  · exact skipsWhen_of_exec (fun _ => rfl) fun _ => bne_iff_ne
  · exact skipsWhen_of_exec (fun _ => rfl) fun _ => beq_iff_eq
  · exact skipsWhen_of_exec (fun _ => rfl) fun _ => bne_iff_ne

end Sys2Proof.Proofs
end

section
/-!
SUPPORT. Register loads, arithmetic, logic, shifts and the random byte (spec 41_register_alu.md): frames composed write
by write, the flags as numbers, and the effect of each order of writes of R121.
-/

namespace Sys2Proof.Machine

/-! ## Frames, write by write -/

theorem Piece.same_trans {p : Piece} {s t u : State} (h : p.same s t) (h' : p.same t u) : p.same s u := by
  cases p <;> exact h'.trans h

theorem UnchangedBut.trans {ps qs : List Piece} {s t u : State} (h : UnchangedBut ps s t) (h' : UnchangedBut qs t u) :
    UnchangedBut (ps ++ qs) s u := by
  intro p hp
  rw [List.mem_append, not_or] at hp
  obtain ⟨hps, hqs⟩ := hp
  exact Piece.same_trans (h p hps) (h' p hqs)

theorem UnchangedBut.mono {ps qs : List Piece} {s t : State} (h : UnchangedBut ps s t) (hsub : ps ⊆ qs) :
    UnchangedBut qs s t :=
  fun p hp => h p fun hmem => hp (hsub hmem)

theorem unchangedBut_setV (s : State) (x : Reg) (b : Byte) : UnchangedBut [.v x] s (s.setV x b) := by
  intro p hp
  cases p
  case v y =>
    have hne : x ≠ y := by rintro rfl; simp at hp
    exact s.getV_setV_ne hne b
  all_goals rfl

theorem unchangedBut_setFlag (s : State) (c : Bool) : UnchangedBut [.v 15] s (s.setFlag c) :=
  unchangedBut_setV s regVF (flagByte c)

theorem unchangedBut_advance (s : State) : UnchangedBut [.pc] s s.advance := unchangedBut_setPc s _

theorem unchangedBut_draw8 (s : State) : UnchangedBut [.draws] s s.draw8.2 := by
  intro p hp
  cases p
  case draws => simp at hp
  all_goals rfl

/-- A load changes the one register and `pc`. -/
theorem unchangedBut_loadV (s : State) (x : Reg) (b : Byte) : UnchangedBut [.v x, .pc] s (s.setV x b).advance :=
  (unchangedBut_setV s x b).trans (unchangedBut_advance _)

/-- `8xy4` changes its destination, VF and `pc`. -/
theorem unchangedBut_vThenFlag (s : State) (x : Reg) (b : Byte) (c : Bool) :
    UnchangedBut [.v x, .v 15, .pc] s ((s.setV x b).setFlag c).advance :=
  ((unchangedBut_setV s x b).trans (unchangedBut_setFlag _ c)).trans (unchangedBut_advance _)

/-- The writes of `8xy5`, `8xy6`, `8xy7` and `8xyE` reach the destination, VF and `pc`. -/
theorem unchangedBut_flagThenV (s : State) (c : Bool) (x : Reg) (b : Byte) :
    UnchangedBut [.v x, .v 15, .pc] s ((s.setFlag c).setV x b).advance :=
  (((unchangedBut_setFlag s c).trans (unchangedBut_setV _ x b)).trans (unchangedBut_advance _)).mono (by simp)

/-- `Cxnn` changes its destination, `pc` and the count of draws. -/
theorem unchangedBut_draw8_loadV (s : State) (x : Reg) (b : Byte) :
    UnchangedBut [.v x, .pc, .draws] s (s.draw8.2.setV x b).advance :=
  ((unchangedBut_draw8 s).trans (unchangedBut_loadV _ x b)).mono (by simp)

/-! ## Flags as numbers (R11) -/

theorem toNat_flagByte_decide (p : Prop) [Decidable p] : (flagByte (decide p)).toNat = if p then 1 else 0 := by
  by_cases h : p <;> simp [flagByte, h]

theorem toNat_flagByte_lowBit (a : Byte) : (flagByte (lowBit a)).toNat = a.toNat % 2 := by
  have hbit : lowBit a = decide (a.toNat % 2 = 1) := Nat.testBit_zero a.toNat
  rw [hbit, toNat_flagByte_decide]
  split <;> omega

theorem toNat_flagByte_highBit (a : Byte) : (flagByte (highBit a)).toNat = a.toNat / 128 := by
  have ha := a.isLt
  have hbit : highBit a = decide (128 ≤ a.toNat) := BitVec.msb_eq_decide a
  rw [hbit, toNat_flagByte_decide]
  split <;> omega

/-! ## Results as numbers -/

/-- A difference of bytes is taken modulo 256 (R129, R132). -/
theorem toNat_sub_byte (a b : Byte) : (a - b).toNat = (a.toNat + 256 - b.toNat) % 256 := by
  have hb := b.isLt
  rw [BitVec.toNat_sub]
  omega

theorem toNat_shiftRight_one (a : Byte) : (a >>> 1).toNat = a.toNat / 2 := by
  rw [BitVec.toNat_ushiftRight, Nat.shiftRight_eq_div_pow]

theorem toNat_shiftLeft_one (a : Byte) : (a <<< 1).toNat = a.toNat * 2 % 256 := by
  rw [BitVec.toNat_shiftLeft, Nat.shiftLeft_eq]

/-! ## The effect of each order of writes (R121) -/

/-- An instruction whose meaning is a load has the effect of a load. -/
theorem loadsRegister_of_exec {ins : Instr} {x : Reg} {byte : State → Byte} {value : State → Nat}
    (he : ∀ s, exec ins s = s.loadV x (byte s)) (hvalue : ∀ s, (byte s).toNat = value s) :
    LoadsRegister ins x value := by
  refine fun s => ⟨_, he s, ?_, rfl, unchangedBut_loadV s x _⟩
  rw [State.loadV_getV, if_pos rfl, hvalue]

/-- Flag first, then the result: the destination holds the result, and VF the flag where it is not the destination. -/
theorem exists_next_of_flagThenV {ins : Instr} {s : State} {c : Bool} {x : Reg} {b : Byte} {result flag : Nat}
    (he : exec ins s = s.flagThenV c x b) (hresult : b.toNat = result) (hflag : (flagByte c).toNat = flag) :
    ∃ t, exec ins s = .next t ∧ (t.getV x).toNat = result ∧ (x ≠ regVF → (t.getV regVF).toNat = flag) ∧
      t.pc = s.pc + 2 ∧ UnchangedBut [.v x, .v 15, .pc] s t := by
  refine ⟨_, he, ?_, fun hx => ?_, rfl, unchangedBut_flagThenV s c x b⟩
  · rw [State.flagThenV_getV, if_pos rfl, hresult]
  · rw [State.flagThenV_getV, if_neg hx, if_pos rfl, hflag]

/-- Result first, then the flag: VF holds the flag, and the destination the result where it is not VF. -/
theorem exists_next_of_vThenFlag {ins : Instr} {s : State} {x : Reg} {b : Byte} {c : Bool} {result flag : Nat}
    (he : exec ins s = s.vThenFlag x b c) (hresult : b.toNat = result) (hflag : (flagByte c).toNat = flag) :
    ∃ t, exec ins s = .next t ∧ (t.getV regVF).toNat = flag ∧ (x ≠ regVF → (t.getV x).toNat = result) ∧
      t.pc = s.pc + 2 ∧ UnchangedBut [.v x, .v 15, .pc] s t := by
  refine ⟨_, he, ?_, fun hx => ?_, rfl, unchangedBut_vThenFlag s x b c⟩
  · rw [State.vThenFlag_getV, if_pos rfl, hflag]
  · rw [State.vThenFlag_getV, if_neg (Ne.symm hx), if_pos rfl, hresult]

end Sys2Proof.Machine

namespace Sys2Proof.Proofs

open Sys2Proof.Machine

/-- Settles O20: each is a load of its own byte, and the operations on bytes are those on their numbers. -/
theorem loadsAndLogic : Obligations.LoadsAndLogic := by
  unfold Obligations.LoadsAndLogic
  refine ⟨fun x nn => ⟨decodeWord_encode (ins := .ldImm x nn) rfl, ?_⟩,
    fun x nn => ⟨decodeWord_encode (ins := .addImm x nn) rfl, ?_⟩,
    fun x y => ⟨decodeWord_encode (ins := .ldReg x y) rfl, ?_⟩,
    fun x y => ⟨decodeWord_encode (ins := .orReg x y) rfl, ?_⟩,
    fun x y => ⟨decodeWord_encode (ins := .andReg x y) rfl, ?_⟩,
    fun x y => ⟨decodeWord_encode (ins := .xorReg x y) rfl, ?_⟩⟩
  · exact loadsRegister_of_exec (fun _ => rfl) fun _ => rfl
  · exact loadsRegister_of_exec (fun _ => rfl) fun s => BitVec.toNat_add (s.getV x) nn
  · exact loadsRegister_of_exec (fun _ => rfl) fun _ => rfl
  · exact loadsRegister_of_exec (fun _ => rfl) fun s => BitVec.toNat_or (s.getV x) (s.getV y)
  · exact loadsRegister_of_exec (fun _ => rfl) fun s => BitVec.toNat_and (s.getV x) (s.getV y)
  · exact loadsRegister_of_exec (fun _ => rfl) fun s => BitVec.toNat_xor (s.getV x) (s.getV y)

/-- Settles O21: the sum is written first, so that VF keeps the carry. -/
theorem addSetsCarry : Obligations.AddSetsCarry := by
  unfold Obligations.AddSetsCarry
  exact fun x y s => exists_next_of_vThenFlag rfl (BitVec.toNat_add (s.getV x) (s.getV y)) (toNat_flagByte_decide _)

/-- Settles O22: the strict comparison is written first, so that `V[x]` keeps the difference. -/
theorem subtractionsSetNoBorrow : Obligations.SubtractionsSetNoBorrow := by
  unfold Obligations.SubtractionsSetNoBorrow
  refine fun x y s => ⟨?_, ?_⟩
  · exact exists_next_of_flagThenV rfl (toNat_sub_byte (s.getV x) (s.getV y)) (toNat_flagByte_decide _)
  · exact exists_next_of_flagThenV rfl (toNat_sub_byte (s.getV y) (s.getV x)) (toNat_flagByte_decide _)

/-- Settles O23: the bit shifted out is written first, so that `V[x]` keeps the shifted value. -/
theorem shiftsSetTheBitShiftedOut : Obligations.ShiftsSetTheBitShiftedOut := by
  unfold Obligations.ShiftsSetTheBitShiftedOut
  refine fun x y s => ⟨?_, ?_⟩
  · exact exists_next_of_flagThenV rfl (toNat_shiftRight_one (s.getV x)) (toNat_flagByte_lowBit (s.getV x))
  · exact exists_next_of_flagThenV rfl (toNat_shiftLeft_one (s.getV x)) (toNat_flagByte_highBit (s.getV x))

/-- Settles O24: a bit of the mask that is clear clears the bit of whatever byte was drawn. -/
theorem randomByteIsMasked : Obligations.RandomByteIsMasked := by
  unfold Obligations.RandomByteIsMasked
  refine fun x nn => ⟨decodeWord_encode (ins := .rnd x nn) rfl, fun s => ?_⟩
  have hv : (s.draw8.2.setV x (s.draw8.1 &&& nn)).advance.getV x = Config.randomByte s.draws &&& nn := by
    rw [State.loadV_getV, if_pos rfl, State.draw8_fst]
  refine ⟨_, rfl, hv, fun b hb => ?_, ?_, rfl, rfl, unchangedBut_draw8_loadV s x _⟩
  · rw [hv, BitVec.getLsbD_and, hb, Bool.and_false]
  · rw [hv, BitVec.toNat_and]
    exact Nat.and_le_right

end Sys2Proof.Proofs
end

section
/-!
SUPPORT. The index register and memory (spec 42_index_memory.md): the frames of a write of `I`, of a run of stores at
`I` and of a run of loads into the first registers, and the effect of each as an instruction.
-/

namespace Sys2Proof.Machine

/-! ## Frames -/

/-- The sequential action adds `pc` to what a write changes. -/
theorem UnchangedBut.advance {ps : List Piece} {s t : State} (h : UnchangedBut ps s t) :
    UnchangedBut (.pc :: ps) s t.advance :=
  (h.trans (unchangedBut_advance t)).mono (by simp)

theorem unchangedBut_setI (s : State) (w : Word) : UnchangedBut [.i] s (s.setI w) := by
  intro p hp
  cases p
  case i => simp at hp
  all_goals rfl

/-- A run of stores at `I` changes the bytes it reaches, modulo 4096, and no others (R146, decision D4). -/
theorem unchangedBut_storeAtI (s : State) (bs : List Byte) :
    UnchangedBut (bytePieces s bs.length) s (s.storeAtI bs) := by
  intro p hp
  cases p
  case mem a =>
    refine s.read_storeAtI_other bs fun k hk ha => hp ?_
    exact List.mem_map.mpr ⟨k, List.mem_range.mpr hk, congrArg Piece.mem ha⟩
  all_goals rfl

theorem mem_regPieces {x k : Reg} (hk : k ≤ x) : Piece.v k ∈ regPieces x := by
  simp [regPieces, hk]

/-- A run of `x + 1` loads changes `V[0]` to `V[x]` and no other register (R145). -/
theorem unchangedBut_setRegs (s : State) {bs : List Byte} {x : Reg} (hlen : bs.length = x.val + 1) :
    UnchangedBut (regPieces x) s (s.setRegs bs) := by
  intro p hp
  cases p
  case v k =>
    have hk : x.val < k.val := Nat.lt_of_not_le fun hle => hp (mem_regPieces hle)
    exact s.getV_setRegs_ge (hlen ▸ hk)
  all_goals rfl

/-! ## Effects -/

/-- The glyph of the largest byte begins below 65536, so `Fx29` does not wrap (R142, decision D21). -/
theorem toNat_regWord_mul_five (b : Byte) : (regWord b * 5).toNat = b.toNat * 5 := by
  have hb := b.isLt
  have hfive : (5 : Word).toNat = 5 := rfl
  rw [BitVec.toNat_mul, toNat_regWord, hfive]
  exact Nat.mod_eq_of_lt (by omega)

/-- An instruction whose meaning is a write of `I` has the effect of a load of `I`. -/
theorem loadsIndex_of_exec {ins : Instr} {word : State → Word} {value : State → Nat}
    (he : ∀ s, exec ins s = .next (s.setI (word s)).advance) (hvalue : ∀ s, (word s).toNat = value s) :
    LoadsIndex ins value :=
  fun s => ⟨_, he s, hvalue s, rfl, ((unchangedBut_setI s _).advance).mono (by simp)⟩

/-- The instruction after a run of stores at `I` finds the bytes of the run in memory (R146). -/
theorem read_advance_storeAtI {s : State} (h : s.mem.wf = true) {bs : List Byte} (hlen : bs.length ≤ 4096) {k : Nat}
    (hk : k < bs.length) : (s.storeAtI bs).advance.mem.read ((s.i.toNat + k) % 4096) = bs[k] :=
  s.read_storeAtI h bs hlen k hk

end Sys2Proof.Machine

namespace Sys2Proof.Proofs

open Sys2Proof.Machine

/-- Settles O28: the run of stores is the first `x + 1` registers, too short to meet its own beginning. -/
theorem registersStored : Obligations.RegistersStored := by
  unfold Obligations.RegistersStored
  refine fun x => ⟨decodeWord_encode (ins := .storeRegs x) rfl, fun s hwf => ?_⟩
  have hlen := s.length_firstRegs x
  refine ⟨_, rfl, fun k hkx => ?_, rfl, ?_⟩
  · have hk : k.val < (s.firstRegs x).length := hlen ▸ Nat.lt_succ_of_le hkx
    calc (s.storeAtI (s.firstRegs x)).advance.mem.read ((s.i.toNat + k.val) % 4096)
        = (s.firstRegs x)[k.val] := read_advance_storeAtI hwf (by omega) hk
      _ = s.getV k := s.getElem_firstRegs x k.val hk
  · exact hlen ▸ (unchangedBut_storeAtI s (s.firstRegs x)).advance

/-- Settles O29: register `k` receives byte `k` of the run. -/
theorem registersLoaded : Obligations.RegistersLoaded := by
  unfold Obligations.RegistersLoaded
  refine fun x => ⟨decodeWord_encode (ins := .loadRegs x) rfl, fun s => ?_⟩
  have hlen := s.length_bytesAtI (x.val + 1)
  refine ⟨_, rfl, fun k hkx => ?_, rfl, (unchangedBut_setRegs s hlen).advance⟩
  have hk : k.val < (s.bytesAtI (x.val + 1)).length := by
    rw [hlen]
    exact Nat.lt_succ_of_le hkx
  calc (s.setRegs (s.bytesAtI (x.val + 1))).advance.getV k
      = (s.bytesAtI (x.val + 1))[k.val] := by rw [State.getV_advance, State.getV_setRegs, dif_pos hk]
    _ = s.mem.read ((s.i.toNat + k.val) % 4096) := s.getElem_bytesAtI (x.val + 1) k.val hk

/-- Settles O25: the write of `I` is the zero-extended address. -/
theorem loadIndexImmediate : Obligations.LoadIndexImmediate := by
  unfold Obligations.LoadIndexImmediate
  refine fun nnn => ⟨decodeWord_encode (ins := .ldI nnn) rfl, ?_⟩
  exact loadsIndex_of_exec (fun _ => rfl) fun _ => toNat_zext16 nnn

/-- Settles O26: the sum is one of words, and the product fits in a word. -/
theorem indexArithmetic : Obligations.IndexArithmetic := by
  unfold Obligations.IndexArithmetic
  refine fun x => ⟨loadsIndex_of_exec (fun _ => rfl) fun s => ?_, loadsIndex_of_exec (fun _ => rfl) fun s => ?_⟩
  · rw [BitVec.toNat_add, toNat_regWord]
  · exact toNat_regWord_mul_five (s.getV x)

/-- Settles O27: the run of stores is the three digits, and a digit of weight 100 needs no remainder. -/
theorem decimalDigitsStored : Obligations.DecimalDigitsStored := by
  unfold Obligations.DecimalDigitsStored
  refine fun x => ⟨decodeWord_encode (ins := .ldBcd x) rfl, fun s hwf => ?_⟩
  have hdigit (k : Nat) (hk : k < 3) :
      ((s.storeAtI (decimalDigits (s.getV x))).advance.mem.read ((s.i.toNat + k) % 4096)).toNat
        = (s.getV x).toNat / 10 ^ (2 - k) % 10 :=
    (congrArg BitVec.toNat (read_advance_storeAtI hwf (by simp [decimalDigits]) hk)).trans
      (toNat_getElem_decimalDigits (s.getV x) k hk)
  have hbyte := (s.getV x).isLt
  refine ⟨_, rfl, ?_, ?_, ?_, rfl, (unchangedBut_storeAtI s (decimalDigits (s.getV x))).advance⟩
  · rw [hdigit 0 (by decide)]
    omega
  · exact hdigit 1 (by decide)
  · rw [hdigit 2 (by decide)]
    omega

end Sys2Proof.Proofs
end

section
/-!
SUPPORT. The framebuffer instructions (spec 43_display.md): the pixels the engine visits are those of `visits`, the
state after a draw, and what one draw, a draw on a framebuffer of any size, and a second draw do.
-/

namespace Sys2Proof.Machine

/-! ## Positions wrap -/

@[simp] theorem Grid.pixel_mod (g : Grid) (r c : Nat) : g.pixel (r % g.rows) (c % g.cols) = g.pixel r c := by
  simp [Grid.pixel, Grid.place]

/-- Canonical framebuffers of the same sizes with the same pixels inside the grid are the same data. -/
theorem Grid.ext_pixels_of_lt {g h : Grid} (hg : g.wf = true) (hh : h.wf = true) (hrows : g.rows = h.rows)
    (hcols : g.cols = h.cols) (hp : ∀ r c, r < h.rows → c < h.cols → g.pixel r c = h.pixel r c) : g = h := by
  obtain ⟨⟨hr, hc⟩, -⟩ := Grid.wf_iff.mp hh
  refine Grid.ext_pixels hg hh hrows hcols fun r c => ?_
  rw [← g.pixel_mod, ← h.pixel_mod, hrows, hcols]
  exact hp _ _ (Nat.mod_lt r hr) (Nat.mod_lt c hc)

/-- Positions reduced modulo the sizes share a place only where they are equal. -/
theorem Grid.place_inj_of_lt {g : Grid} {p q : Nat × Nat} (hp : p.1 < g.rows ∧ p.2 < g.cols)
    (hq : q.1 < g.rows ∧ q.2 < g.cols) : g.place p.1 p.2 = g.place q.1 q.2 ↔ p = q := by
  obtain ⟨hp1, hp2⟩ := hp
  obtain ⟨hq1, hq2⟩ := hq
  rw [Grid.place_inj (Nat.zero_lt_of_lt hp2), Nat.mod_eq_of_lt hp1, Nat.mod_eq_of_lt hp2, Nat.mod_eq_of_lt hq1,
    Nat.mod_eq_of_lt hq2, Prod.ext_iff]

/-! ## The pixels a sprite visits -/

/-- The engine visits the pixels of `visits`, in its order (R160). -/
theorem spritePixels_eq_visits (s : State) (x y : Reg) (n : Nat) :
    s.fb.spritePixels (s.getV x).toNat (s.getV y).toNat (s.bytesAtI n) = visits s x y n := by
  rw [Grid.spritePixels_eq_range, State.length_bytesAtI, visits]
  congr 1
  refine List.filter_congr fun b hb => ?_
  have hk : b / 8 < (s.bytesAtI n).length := by
    rw [State.length_bytesAtI]
    exact Nat.div_lt_of_lt_mul (List.mem_range.mp hb)
  rw [List.getD_eq_getElem _ _ hk, State.getElem_bytesAtI]

/-- A sprite visits the pixels it covers. -/
theorem mem_visits {s : State} {x y : Reg} {n r c : Nat} : (r, c) ∈ visits s x y n ↔ Covers s x y n r c := by
  rw [← spritePixels_eq_visits, Grid.mem_spritePixels]
  simp [Covers, State.getElem_bytesAtI]

theorem lt_of_mem_visits {s : State} (hwf : s.fb.wf = true) {x y : Reg} {n : Nat} {p : Nat × Nat}
    (hp : p ∈ visits s x y n) : p.1 < s.fb.rows ∧ p.2 < s.fb.cols := by
  obtain ⟨⟨hrows, hcols⟩, -⟩ := Grid.wf_iff.mp hwf
  rw [← spritePixels_eq_visits] at hp
  exact Grid.spritePixels_reduced hrows hcols hp

/-- Two states that agree on the coordinates, the bytes at `I` and the sizes of the framebuffer visit the same pixels. -/
theorem visits_congr {s t : State} {x y : Reg} (hx : t.getV x = s.getV x) (hy : t.getV y = s.getV y)
    (hi : t.i = s.i) (hmem : t.mem = s.mem) (hrows : t.fb.rows = s.fb.rows) (hcols : t.fb.cols = s.fb.cols) (n : Nat) :
    visits t x y n = visits s x y n := by
  simp only [visits, State.effAddr, hx, hy, hi, hmem, hrows, hcols]

/-- A run of inversions over pixels of a sprite inverts each once for each visit. -/
theorem pixel_foldl_invert_visits {s : State} (hwf : s.fb.wf = true) {x y : Reg} {n : Nat} {ps : List (Nat × Nat)}
    (hps : ps ⊆ visits s x y n) {p : Nat × Nat} (hp : p.1 < s.fb.rows ∧ p.2 < s.fb.cols) :
    (ps.foldl Grid.invert (s.fb, false)).1.pixel p.1 p.2 = invertedBy s ps p := by
  have hcount : (ps.countP fun q => decide (s.fb.place p.1 p.2 = s.fb.place q.1 q.2)) = ps.count p := by
    rw [List.count]
    refine List.countP_congr fun q hq => ?_
    rw [decide_eq_true_iff, Grid.place_inj_of_lt hp (lt_of_mem_visits hwf (hps hq)), beq_iff_eq, eq_comm]
  rw [Grid.pixel_foldl_invert ps (acc := (s.fb, false)) hwf, invertedBy, hcount]

/-! ## The state after a draw -/

/-- The framebuffer and the collision of `Dxyn` (R162). -/
def State.drawn (s : State) (x y : Reg) (n : Nat) : Grid × Bool :=
  s.fb.drawSprite (s.getV x).toNat (s.getV y).toNat (s.bytesAtI n)

/-- The state after `Dxyn`. -/
def State.afterDraw (s : State) (x y : Reg) (n : Nat) : State :=
  ((s.setFb (s.drawn x y n).1).setFlag (s.drawn x y n).2).advance

theorem exec_drw (x y : Reg) (n : Fin 16) (s : State) : exec (.drw x y n) s = .next (s.afterDraw x y n.val) := rfl

theorem flagByte_eq_one_iff {c : Bool} : flagByte c = 1 ↔ c = true := by cases c <;> decide

theorem flagByte_eq_zero_iff {c : Bool} : flagByte c = 0 ↔ c = false := by cases c <;> decide

theorem unchangedBut_setFb (s : State) (g : Grid) : UnchangedBut [.fb] s (s.setFb g) := by
  intro p hp
  cases p
  case fb => simp at hp
  all_goals rfl

section
variable (s : State) (x y : Reg) (n : Nat)

@[simp] theorem State.afterDraw_fb : (s.afterDraw x y n).fb = (s.drawn x y n).1 := rfl
@[simp] theorem State.afterDraw_i : (s.afterDraw x y n).i = s.i := rfl
@[simp] theorem State.afterDraw_mem : (s.afterDraw x y n).mem = s.mem := rfl
@[simp] theorem State.drawn_rows : (s.drawn x y n).1.rows = s.fb.rows := Grid.drawSprite_rows ..
@[simp] theorem State.drawn_cols : (s.drawn x y n).1.cols = s.fb.cols := Grid.drawSprite_cols ..

@[simp] theorem State.getV_afterDraw_flag : (s.afterDraw x y n).getV 15 = flagByte (s.drawn x y n).2 :=
  State.getV_setV_same _ regVF _

theorem State.getV_afterDraw_ne {z : Reg} (hz : z ≠ 15) : (s.afterDraw x y n).getV z = s.getV z :=
  State.getV_setFlag_ne _ hz _

/-- A draw changes the pixels, VF and `pc`. -/
theorem unchangedBut_afterDraw : UnchangedBut [.fb, .v 15, .pc] s (s.afterDraw x y n) :=
  ((unchangedBut_setFb s _).trans (unchangedBut_setFlag _ _)).trans (unchangedBut_advance _)

theorem State.wf_drawn (hwf : s.fb.wf = true) : (s.drawn x y n).1.wf = true := Grid.wf_drawSprite hwf ..

/-- A draw is the run of inversions over the pixels it visits (R160). -/
theorem State.drawn_eq_foldl : s.drawn x y n = (visits s x y n).foldl Grid.invert (s.fb, false) :=
  congrArg (List.foldl Grid.invert (s.fb, false)) (spritePixels_eq_visits s x y n)

end

/-- A second draw that finds its coordinates as the first found them visits the same pixels. -/
theorem visits_afterDraw {s : State} {x y : Reg} {n : Nat} (hx : (s.afterDraw x y n).getV x = s.getV x)
    (hy : (s.afterDraw x y n).getV y = s.getV y) : visits (s.afterDraw x y n) x y n = visits s x y n :=
  visits_congr hx hy (s.afterDraw_i ..) (s.afterDraw_mem ..) (s.drawn_rows ..) (s.drawn_cols ..) n

/-! ## A draw with room for the sprite -/

theorem length_bytesAtI_le_rows {s : State} (hroom : RoomForSprite s) (n : Fin 16) :
    (s.bytesAtI n.val).length ≤ s.fb.rows := by
  obtain ⟨hrows, -⟩ := hroom
  rw [State.length_bytesAtI]
  omega

theorem roomForSprite_afterDraw {s : State} (hroom : RoomForSprite s) (x y : Reg) (n : Nat) :
    RoomForSprite (s.afterDraw x y n) := by
  simpa [RoomForSprite] using hroom

section
variable {s : State} (hwf : s.fb.wf = true) (hroom : RoomForSprite s) (x y : Reg) (n : Fin 16)
include hwf hroom

/-- A draw inverts exactly the pixels it visits. -/
theorem State.pixel_drawn {r c : Nat} (hr : r < s.fb.rows) (hc : c < s.fb.cols) :
    (s.drawn x y n.val).1.pixel r c = (s.fb.pixel r c ^^ decide ((r, c) ∈ visits s x y n.val)) := by
  rw [← spritePixels_eq_visits]
  exact Grid.pixel_drawSprite hwf hroom.2 (length_bytesAtI_le_rows hroom n) hr hc

/-- A draw collides iff it covers a pixel that is on. -/
theorem State.collision_drawn :
    (s.drawn x y n.val).2 = true ↔ ∃ r c, Covers s x y n.val r c ∧ s.fb.pixel r c = true := by
  rw [State.drawn, Grid.collision_drawSprite hwf hroom.2 (length_bytesAtI_le_rows hroom n), spritePixels_eq_visits]
  simp [mem_visits]

/-- A draw inverts a pixel it covers. -/
theorem State.pixel_drawn_of_covers {r c : Nat} (h : Covers s x y n.val r c) :
    (s.drawn x y n.val).1.pixel r c = !s.fb.pixel r c := by
  obtain ⟨hr, hc⟩ := lt_of_mem_visits hwf (mem_visits.mpr h)
  simp [State.pixel_drawn hwf hroom x y n hr hc, mem_visits, h]

/-- A draw leaves a pixel of the grid that it does not cover. -/
theorem State.pixel_drawn_of_not_covers {r c : Nat} (hr : r < s.fb.rows) (hc : c < s.fb.cols)
    (h : ¬ Covers s x y n.val r c) : (s.drawn x y n.val).1.pixel r c = s.fb.pixel r c := by
  simp [State.pixel_drawn hwf hroom x y n hr hc, mem_visits, h]

/-! ## A second draw at the same coordinates (R164 (a)) -/

variable {x y} (hx : (s.afterDraw x y n.val).getV x = s.getV x) (hy : (s.afterDraw x y n.val).getV y = s.getV y)
include hx hy

/-- The second draw undoes the first: each pixel of the grid is inverted twice or not at all. -/
theorem fb_afterDraw_twice : ((s.afterDraw x y n.val).afterDraw x y n.val).fb = s.fb := by
  have hwf' : (s.afterDraw x y n.val).fb.wf = true := s.wf_drawn x y n.val hwf
  have hroom' := roomForSprite_afterDraw hroom x y n.val
  refine Grid.ext_pixels_of_lt (State.wf_drawn _ x y n.val hwf') hwf (by simp) (by simp) fun r c hr hc => ?_
  calc ((s.afterDraw x y n.val).drawn x y n.val).1.pixel r c
      = ((s.drawn x y n.val).1.pixel r c ^^ decide ((r, c) ∈ visits s x y n.val)) := by
        rw [State.pixel_drawn hwf' hroom' x y n (by simpa using hr) (by simpa using hc), visits_afterDraw hx hy,
          State.afterDraw_fb]
    _ = s.fb.pixel r c := by
        rw [State.pixel_drawn hwf hroom x y n hr hc, Bool.xor_assoc, Bool.xor_self, Bool.xor_false]

/-- The second draw collides iff the sprite covers a pixel that the first turned on. -/
theorem flag_afterDraw_twice : ((s.afterDraw x y n.val).afterDraw x y n.val).getV 15 = 1 ↔
    ∃ r c, Covers s x y n.val r c ∧ s.fb.pixel r c = false := by
  have hwf' : (s.afterDraw x y n.val).fb.wf = true := s.wf_drawn x y n.val hwf
  have hroom' := roomForSprite_afterDraw hroom x y n.val
  rw [State.getV_afterDraw_flag, flagByte_eq_one_iff, State.collision_drawn hwf' hroom' x y n]
  refine exists₂_congr fun r c => ?_
  rw [← mem_visits, visits_afterDraw hx hy, mem_visits]
  refine and_congr_right fun hcov => ?_
  rw [State.afterDraw_fb, State.pixel_drawn_of_covers hwf hroom x y n hcov, Bool.not_eq_true']

end

end Sys2Proof.Machine

namespace Sys2Proof.Proofs

open Sys2Proof.Machine

/-- Settles O33: with room for the sprite no pixel is visited twice. -/
theorem drawInvertsThePixelsItCovers : Obligations.DrawInvertsThePixelsItCovers := by
  unfold Obligations.DrawInvertsThePixelsItCovers
  intro x y n s hwf hroom
  refine ⟨_, exec_drw x y n s, fun r c hr hc => ⟨?_, ?_⟩, ?_⟩
  · exact State.pixel_drawn_of_covers hwf hroom x y n
  · exact State.pixel_drawn_of_not_covers hwf hroom x y n hr hc
  · rw [State.getV_afterDraw_flag, flagByte_eq_one_iff, State.collision_drawn hwf hroom]

/-- Settles O34: the framebuffer before the `k`-th inversion is the one after the run of the first `k`. -/
theorem drawInvertsOncePerSpriteBit : Obligations.DrawInvertsOncePerSpriteBit := by
  unfold Obligations.DrawInvertsOncePerSpriteBit
  intro x y n s hwf
  refine ⟨_, exec_drw x y n s, fun r c hr hc => ?_, ?_⟩
  · rw [State.afterDraw_fb, State.drawn_eq_foldl]
    exact pixel_foldl_invert_visits hwf (List.Subset.refl _) (p := (r, c)) ⟨hr, hc⟩
  · rw [State.getV_afterDraw_flag, flagByte_eq_one_iff, State.drawn_eq_foldl, Grid.collision_foldl_iff,
      or_iff_right Bool.false_ne_true]
    refine exists₂_congr fun k hk => ?_
    rw [pixel_foldl_invert_visits hwf (List.take_subset k _) (lt_of_mem_visits hwf (List.getElem_mem hk))]

/-- Settles O55: the second draw visits the same pixels, so it inverts each of them back. -/
theorem drawingAgainAtTheSameCoordinates : Obligations.DrawingAgainAtTheSameCoordinates := by
  unfold Obligations.DrawingAgainAtTheSameCoordinates
  exact fun x y n s hwf hroom => ⟨_, _, exec_drw x y n s, exec_drw x y n _, fun hx hy =>
    ⟨fb_afterDraw_twice hwf hroom n hx hy, flag_afterDraw_twice hwf hroom n hx hy⟩⟩

/-- Settles O35: a draw leaves every register but VF, so the second finds its coordinates as the first did. -/
theorem drawingTwiceRestoresTheFramebuffer : Obligations.DrawingTwiceRestoresTheFramebuffer := by
  unfold Obligations.DrawingTwiceRestoresTheFramebuffer
  intro x y n s hx15 hy15 hwf hroom
  have hx := s.getV_afterDraw_ne x y n.val hx15
  have hy := s.getV_afterDraw_ne x y n.val hy15
  exact ⟨_, _, exec_drw x y n s, exec_drw x y n _, fb_afterDraw_twice hwf hroom n hx hy,
    flag_afterDraw_twice hwf hroom n hx hy⟩

/-- Settles O36: a draw that collides covers a pixel that is on, and after `00E0` none is. -/
theorem noCollisionAfterClear : Obligations.NoCollisionAfterClear := by
  unfold Obligations.NoCollisionAfterClear
  intro x y n s hwf hroom
  have hcollision := State.collision_drawn (s := (s.setFb s.fb.clear).advance) (Grid.wf_clear hwf) hroom x y n
  refine ⟨_, _, rfl, exec_drw x y n _, ?_⟩
  rw [State.getV_afterDraw_flag, flagByte_eq_zero_iff, ← Bool.not_eq_true, hcollision]
  simp

/-- Settles O31: the framebuffer written has no pixel on and the sizes of the one before. -/
theorem clearTurnsEveryPixelOff : Obligations.ClearTurnsEveryPixelOff := by
  unfold Obligations.ClearTurnsEveryPixelOff
  refine ⟨decodeWord_encode (ins := .cls) rfl, fun s => ?_⟩
  exact ⟨_, rfl, Grid.pixel_clear s.fb, rfl, rfl, rfl, (unchangedBut_setFb s _).trans (unchangedBut_advance _)⟩

/-- Settles O32: VF receives a flag, and a sprite of no bytes visits no pixel. -/
theorem drawCompletesWithItsFrame : Obligations.DrawCompletesWithItsFrame := by
  unfold Obligations.DrawCompletesWithItsFrame
  intro x y n s
  refine ⟨_, exec_drw x y n s, ?_, s.drawn_rows .., s.drawn_cols .., ?_, rfl, unchangedBut_afterDraw s x y n.val⟩
  · rw [State.getV_afterDraw_flag, flagByte_eq_zero_iff, flagByte_eq_one_iff]
    exact Bool.eq_false_or_eq_true _ |>.symm
  · rintro rfl
    exact ⟨rfl, s.getV_afterDraw_flag x y 0⟩

end Sys2Proof.Proofs
end

section
/-!
SUPPORT. Key-test skips, the key wait and timer access (spec 44_keys_timers.md): the key a register value names, the
frames of the timer writes, and when no key is down.
-/

namespace Sys2Proof.Machine

/-! ## Keys -/

/-- The key a register value names is looked up at its low four bits (R170, decision D10). -/
theorem State.isPressed_keyNumber (s : State) (b : Byte) : s.isPressed (keyNumber b) = s.keys[b.toNat % 16] := rfl

theorem toNat_keyByte (k : Key) : (keyByte k).toNat = k.val :=
  (BitVec.toNat_ofNat k.val 8).trans (Nat.mod_eq_of_lt (k.isLt.trans (by decide)))

theorem State.anyPressed_eq_false_iff (s : State) : s.anyPressed = false ↔ ∀ k, s.isPressed k = false := by
  simp [← Bool.not_eq_true, s.anyPressed_iff]

/-! ## Frames of the timer writes -/

theorem unchangedBut_setDt (s : State) (b : Byte) : UnchangedBut [.dt] s (s.setDt b) := by
  intro p hp
  cases p
  case dt => simp at hp
  all_goals rfl

theorem unchangedBut_setSt (s : State) (b : Byte) : UnchangedBut [.st] s (s.setSt b) := by
  intro p hp
  cases p
  case st => simp at hp
  all_goals rfl

end Sys2Proof.Machine

namespace Sys2Proof.Proofs

open Sys2Proof.Machine

/-- Settles O38: each is the skip action under its own test of the key named. -/
theorem keySkips : Obligations.KeySkips := by
  unfold Obligations.KeySkips
  refine fun x => ⟨skipsWhen_of_exec (fun _ => rfl) fun s => ?_, skipsWhen_of_exec (fun _ => rfl) fun s => ?_⟩
  · rw [State.isPressed_keyNumber]
  · rw [State.isPressed_keyNumber, Bool.not_eq_true']

/-- Settles O39, by whether a key is down: a load of the last key's number, or the same state. -/
theorem keyWaitPolls : Obligations.KeyWaitPolls := by
  unfold Obligations.KeyWaitPolls
  refine fun x s => ⟨fun hdown => ?_, fun hup => ?_⟩
  · refine ⟨_, execLdVxKey_of_pressed (s.anyPressed_iff.mpr hdown) x, ?_, rfl, unchangedBut_loadV s x _⟩
    rw [State.loadV_getV, if_pos rfl, toNat_keyByte]
  · exact execLdVxKey_of_idle (s.anyPressed_eq_false_iff.mpr hup) x

/-- Settles O40: a load of `DT`, and a write of each timer followed by the sequential action. -/
theorem timerAccess : Obligations.TimerAccess := by
  unfold Obligations.TimerAccess
  refine fun x => ⟨⟨decodeWord_encode (ins := .ldVxDt x) rfl, ?_⟩,
    ⟨decodeWord_encode (ins := .ldDtVx x) rfl, fun s => ?_⟩,
    ⟨decodeWord_encode (ins := .ldStVx x) rfl, fun s => ?_⟩⟩
  · exact loadsRegister_of_exec (fun _ => rfl) fun _ => rfl
  · exact ⟨_, rfl, rfl, rfl, (unchangedBut_setDt s _).trans (unchangedBut_advance _)⟩
  · exact ⟨_, rfl, rfl, rfl, (unchangedBut_setSt s _).trans (unchangedBut_advance _)⟩

end Sys2Proof.Proofs
end

section
/-!
SUPPORT. Exceptions, ticks and key events (spec 60_exceptions.md): the step that enters a hard fault, the one event a
step can emit, what each timer's decay does, and the frames of the tick and key agents.
-/

namespace Sys2Proof.Machine

/-! ## Entry of a hard fault (R194) -/

/-- A step over a call on a full stack enters the hard fault with the fetched word. -/
theorem step_of_overflow {s : State} (hrun : Running s) {nnn : Addr12} (hd : decodeWord s.fetchWord = .ok (.call nnn))
    (hsp : s.sp = 16) : step s = .next (s.hardFault .stackOverflow s.fetchWord) := by
  rw [step_of_decode hrun hd, execCall_of_full hsp, eq_of_decodeWord_call hd]

/-- A step over a return on an empty stack enters the hard fault with the fetched word. -/
theorem step_of_underflow {s : State} (hrun : Running s) (hd : decodeWord s.fetchWord = .ok .ret) (hsp : s.sp = 0) :
    step s = .next (s.hardFault .stackUnderflow s.fetchWord) := by
  rw [step_of_decode hrun hd, execRet_of_empty hsp, eq_of_decodeWord_ret hd]

/-! ## Events of an instruction -/

/-- An instruction emits nothing but the event of a hard fault (R194, R197). -/
theorem outputs_of_exec {ins : Instr} {s t : State} (he : exec ins s = .next t) :
    t.outputs = s.outputs ∨ ∃ cause w, t.outputs = .fault cause w s.pc :: s.outputs := by
  obtain ⟨t', he', hcases⟩ := exec_cases ins s
  obtain rfl : t' = t := Host.Outcome.next.inj (he'.symm.trans he)
  rcases hcases with ⟨nnn, -, -, rfl⟩ | ⟨-, -, rfl⟩ | ⟨-, -, -, -, -, -, hout, -⟩
  · exact .inr ⟨_, _, rfl⟩
  · exact .inr ⟨_, _, rfl⟩
  · exact .inl hout

/-! ## Frames of an event and of the key agent's writes -/

theorem UnchangedBut.refl (ps : List Piece) (s : State) : UnchangedBut ps s s := by
  intro p _
  cases p <;> rfl

theorem unchangedBut_emit (s : State) (o : Output) : UnchangedBut [.outputs] s (s.emit o) := by
  intro p hp
  cases p
  case outputs => simp at hp
  all_goals rfl

/-- Setting the flag of one key leaves the flags of the others (R21). -/
theorem unchangedBut_setKey (s : State) (k : Key) (b : Bool) :
    UnchangedBut [.key k] s { s with keys := s.keys.set k b } := by
  intro p hp
  cases p
  case key j =>
    have hne : k.val ≠ j.val := fun heq => by simp [Fin.ext heq] at hp
    exact Vector.getElem_set_ne k.isLt j.isLt hne
  all_goals rfl

theorem unchangedBut_setLastKey (s : State) (k : Key) : UnchangedBut [.lastKey] s { s with lastKey := k } := by
  intro p hp
  cases p
  case lastKey => simp at hp
  all_goals rfl

/-! ## Decay of the timers (R211, R212) -/

theorem toNat_sub_one_of_ne_zero {b : Byte} (h : b ≠ 0) : (b - 1).toNat = b.toNat - 1 := by
  have hpos : b.toNat ≠ 0 := BitVec.toNat_ne_iff_ne.mpr h
  exact BitVec.toNat_sub_of_le (Nat.one_le_iff_ne_zero.mpr hpos)

theorem State.toNat_dt_decayDt (s : State) : s.decayDt.dt.toNat = s.dt.toNat - 1 := by
  rcases s.decayDt_cases with ⟨hzero, heq⟩ | ⟨hne, heq⟩ <;> rw [heq]
  · rw [hzero]
    rfl
  · exact toNat_sub_one_of_ne_zero hne

theorem State.toNat_st_decaySt (s : State) : s.decaySt.st.toNat = s.st.toNat - 1 := by
  rcases s.decaySt_cases with ⟨hzero, heq⟩ | ⟨hne, heq⟩ <;> rw [heq]
  · rw [hzero]
    rfl
  · exact toNat_sub_one_of_ne_zero hne

theorem State.decaySt_outputs (s : State) :
    s.decaySt.outputs = if s.st = 0 then s.outputs else .tone :: s.outputs := by
  rcases s.decaySt_cases with ⟨hzero, heq⟩ | ⟨hne, heq⟩ <;> rw [heq]
  · rw [if_pos hzero]
  · rw [if_neg hne]
    rfl

theorem unchangedBut_decayDt (s : State) : UnchangedBut [.dt] s s.decayDt := by
  rcases s.decayDt_cases with ⟨-, heq⟩ | ⟨-, heq⟩ <;> rw [heq]
  · exact .refl _ s
  · exact unchangedBut_setDt s _

theorem unchangedBut_decaySt (s : State) : UnchangedBut [.st, .outputs] s s.decaySt := by
  rcases s.decaySt_cases with ⟨-, heq⟩ | ⟨-, heq⟩ <;> rw [heq]
  · exact .refl _ s
  · exact (unchangedBut_setSt s _).trans (unchangedBut_emit _ _)

@[simp] theorem State.decayDt_st (s : State) : s.decayDt.st = s.st := unchangedBut_decayDt s .st (by simp)

@[simp] theorem State.decayDt_outputs (s : State) : s.decayDt.outputs = s.outputs :=
  unchangedBut_decayDt s .outputs (by simp)

@[simp] theorem State.decaySt_dt (s : State) : s.decaySt.dt = s.dt := unchangedBut_decaySt s .dt (by simp)

/-! ## Ticks -/

section
variable {s : State} (hrun : Running s)
include hrun

theorem toNat_dt_tick : (tick s).dt.toNat = s.dt.toNat - 1 := by
  rw [tick_eq hrun, State.decaySt_dt, State.toNat_dt_decayDt]

theorem toNat_st_tick : (tick s).st.toNat = s.st.toNat - 1 := by
  rw [tick_eq hrun, State.toNat_st_decaySt, State.decayDt_st]

/-- A tick emits a tone exactly when it finds `ST` nonzero (R212). -/
theorem outputs_tick : (tick s).outputs = if s.st = 0 then s.outputs else .tone :: s.outputs := by
  rw [tick_eq hrun, State.decaySt_outputs, State.decayDt_st, State.decayDt_outputs]

theorem unchangedBut_tick : UnchangedBut [.dt, .st, .outputs] s (tick s) :=
  tick_eq hrun ▸ (unchangedBut_decayDt s).trans (unchangedBut_decaySt _)

theorem running_tick : Running (tick s) := (unchangedBut_tick hrun .halted (by simp)).trans hrun

theorem running_iterate_tick (k : Nat) : Running (tick^[k] s) := by
  induction k with
  | zero => exact hrun
  | succ k ih =>
    rw [Function.iterate_succ_apply']
    exact running_tick ih

theorem toNat_st_iterate_tick (k : Nat) : (tick^[k] s).st.toNat = s.st.toNat - k := by
  induction k with
  | zero => rfl
  | succ k ih => rw [Function.iterate_succ_apply', toNat_st_tick (running_iterate_tick hrun k), ih, Nat.sub_sub]

/-- The next tick emits a tone as long as fewer ticks than `ST` have passed (R212). -/
theorem outputs_iterate_tick (k : Nat) :
    (tick^[k] s).outputs = List.replicate (min k s.st.toNat) .tone ++ s.outputs := by
  induction k with
  | zero => simp
  | succ k ih =>
    have hst := toNat_st_iterate_tick hrun k
    rw [Function.iterate_succ_apply', outputs_tick (running_iterate_tick hrun k), ih]
    split
    · next hzero =>
      have hmin : min (k + 1) s.st.toNat = min k s.st.toNat := by
        rw [hzero] at hst
        have hle : s.st.toNat ≤ k := Nat.sub_eq_zero_iff_le.mp hst.symm
        omega
      rw [hmin]
    · next hne =>
      have hmin : min (k + 1) s.st.toNat = min k s.st.toNat + 1 := by
        have hpos : (tick^[k] s).st.toNat ≠ 0 := BitVec.toNat_ne_iff_ne.mpr hne
        omega
      rw [hmin, List.replicate_succ, List.cons_append]

end

/-! ## Key events (R215, R216) -/

theorem press_eq {s : State} (hrun : Running s) (k : Key) :
    press k s = { s with keys := s.keys.set k true, lastKey := k } := by
  simp [press, hrun]

theorem release_eq {s : State} (hrun : Running s) (k : Key) : release k s = { s with keys := s.keys.set k false } := by
  simp [release, hrun]

end Sys2Proof.Machine

namespace Sys2Proof.Proofs

open Sys2Proof.Machine

/-- Settles O52, by the cases of a step: nothing while halted, the fetched instruction, or a reported word. -/
theorem stepKeepsTheInvariant : Obligations.StepKeepsTheInvariant := by
  unfold Obligations.StepKeepsTheInvariant
  intro s t hinv hstep
  obtain ⟨hinv', -, -⟩ := hinv.step hstep
  exact hinv'

/-- Settles O11: a halted step emits nothing, an instruction at most its hard fault, an unrecognized word its
diagnostic. -/
theorem stepEmitsAtMostOneEvent : Obligations.StepEmitsAtMostOneEvent := by
  unfold Obligations.StepEmitsAtMostOneEvent
  intro s t hstep
  rcases step_cases s with ⟨-, heq⟩ | ⟨-, ins, -, heq⟩ | ⟨-, why, -, heq⟩
  · cases heq.symm.trans hstep
    exact .inl rfl
  · rcases outputs_of_exec (heq.symm.trans hstep) with hsame | ⟨cause, w, hfault⟩
    · exact .inl hsame
    · exact .inr ⟨.fault cause w s.pc, nofun, hfault⟩
  · cases heq.symm.trans hstep
    exact .inr ⟨.diag s.fetchWord s.pc, nofun, rfl⟩

/-- Settles O15: the word of the faulting instruction is the word fetched. -/
theorem hardFaultEntryRecordsTheInstruction : Obligations.HardFaultEntryRecordsTheInstruction := by
  unfold Obligations.HardFaultEntryRecordsTheInstruction
  refine fun s hrun => ⟨fun nnn hd hsp => ?_, fun hd hsp => ?_⟩
  · exact ⟨_, step_of_overflow hrun hd hsp, rfl, rfl, rfl, rfl, rfl, unchangedBut_hardFault s _ _⟩
  · exact ⟨_, step_of_underflow hrun hd hsp, rfl, rfl, rfl, rfl, rfl, unchangedBut_hardFault s _ _⟩

/-- Settles O42, by induction on the number of ticks. -/
theorem ticksEmitOneTonePerCount : Obligations.TicksEmitOneTonePerCount := by
  unfold Obligations.TicksEmitOneTonePerCount
  exact fun _ k hrun => ⟨outputs_iterate_tick hrun k, toNat_st_iterate_tick hrun k⟩

/-- Settles O41: the decay of `DT` followed by the decay of `ST`. -/
theorem tickDecaysBothTimers : Obligations.TickDecaysBothTimers := by
  unfold Obligations.TickDecaysBothTimers
  intro s hrun
  have hout := outputs_tick hrun
  refine ⟨toNat_dt_tick hrun, toNat_st_tick hrun, fun hne => ?_, fun hzero => ?_, unchangedBut_tick hrun⟩
  · rwa [if_neg hne] at hout
  · rwa [if_pos hzero] at hout

/-- Settles O43: each event sets the flag of its key, and `last_key` is written by a press only. -/
theorem pressAndRelease : Obligations.PressAndRelease := by
  unfold Obligations.PressAndRelease
  intro k s hrun
  rw [press_eq hrun, release_eq hrun]
  refine ⟨⟨Vector.getElem_set_self k.isLt, rfl, ?_⟩, Vector.getElem_set_self k.isLt, unchangedBut_setKey s k false⟩
  exact (unchangedBut_setKey s k true).trans (unchangedBut_setLastKey _ k)

end Sys2Proof.Proofs
end

section
/-!
SUPPORT. Reset and the core no reset has started (spec 70_reset_and_hazards.md): the registers, keys and pixels of a
booted core, the images a reset refuses, the invariant right after reset, and the one fault of an unstarted core.
-/

namespace Sys2Proof.Machine

/-! ## The core an accepted reset starts (R231) -/

section
variable (cfg : Config) (image : List Byte) (draws : Nat) (outputs : List Output)

@[simp] theorem State.getV_boot (r : Reg) : (State.boot cfg image draws outputs).getV r = 0 :=
  Vector.getElem_replicate r.isLt

@[simp] theorem State.isPressed_boot (k : Key) : (State.boot cfg image draws outputs).isPressed k = false :=
  Vector.getElem_replicate k.isLt

@[simp] theorem State.boot_fb : (State.boot cfg image draws outputs).fb = Grid.blank cfg.fbH cfg.fbW := rfl

end

/-- The state after reset has the invariant: no cell of memory is listed, no pixel is on, nothing has faulted. -/
theorem CoreInv.reset : CoreInv State.reset :=
  ⟨rfl, Grid.wf_blank (by decide) (by decide), .inl ⟨rfl, rfl, rfl, rfl⟩⟩

/-! ## A reset that is refused (R232) -/

theorem resetTo_of_unreadable (cfg : Config) (m : Option State) : resetTo cfg none m = (m, .loadFailure) := rfl

theorem resetTo_of_too_long (cfg : Config) {bytes : List Byte} (h : maxImage < bytes.length) (m : Option State) :
    resetTo cfg (some bytes) m = (m, .loadFailure) :=
  if_neg (Nat.not_le.mpr h)

/-! ## The core before its first accepted reset (U15) -/

theorem transition_none (cfg : Config) {e : Input} (he : e.isReset = false) :
    transition cfg e none = .fault .notStarted := by
  cases e with
  | reset image => cases he
  | step | tick | press k | release k => rfl

end Sys2Proof.Machine

namespace Sys2Proof.Proofs

open Sys2Proof.Machine

/-- Settles O47: an image that fits boots the core, whatever the core was before. -/
theorem resetSetsEveryRegister : Obligations.ResetSetsEveryRegister := by
  unfold Obligations.ResetSetsEveryRegister
  intro cfg bytes m hlen
  obtain ⟨draws, outputs, heq⟩ := resetTo_of_fits cfg hlen m
  refine ⟨_, heq, State.getV_boot cfg bytes draws outputs, rfl, rfl, rfl, rfl, rfl,
    State.isPressed_boot cfg bytes draws outputs, rfl, rfl, rfl, rfl, rfl, rfl, fun r c => ?_⟩
  rw [State.boot_fb, Grid.pixel_blank]

/-- Settles O49, by the two ways an image is refused. -/
theorem resetRefusesWithoutEffect : Obligations.ResetRefusesWithoutEffect := by
  unfold Obligations.ResetRefusesWithoutEffect
  rintro cfg image m (rfl | ⟨bytes, rfl, hlen⟩)
  · rw [resetTo_of_unreadable]
    exact ⟨rfl, rfl⟩
  · rw [resetTo_of_too_long cfg hlen]
    exact ⟨rfl, rfl⟩

/-- Settles O50, by the cases of the input. -/
theorem unstartedCoreIsStuck : Obligations.UnstartedCoreIsStuck := by
  unfold Obligations.UnstartedCoreIsStuck
  exact fun cfg _ he => transition_none cfg he

/-- Settles O51: memory and framebuffer list nothing, and the core runs with a zero fault record. -/
theorem resetStateHasTheInvariant : Obligations.ResetStateHasTheInvariant := by
  unfold Obligations.ResetStateHasTheInvariant
  exact CoreInv.reset

end Sys2Proof.Proofs
end
